-- ==== Sys2Proof/Word.lean ====
section
/-! DEFINITION. The unit's word types: a field element or buffer entry, a register or command word, a window offset. -/

namespace Sys2Proof

/-- A field element (R11) or a buffer entry's value (R25): eight bits, unsigned. -/
abbrev Byte := BitVec 8

/-- A register's or a command's word (R22, R80): 32 bits, bit 0 the least significant (R10). -/
abbrev Word := BitVec 32

/-- A byte offset into the 4096-byte window: twelve bits (R51). -/
abbrev Offset := BitVec 12

end Sys2Proof
end

