-- ==== Sys2Proof/Syntax.lean ====
section
/-! DEFINITION. The unit's commands: one constructor per row of the opcode table (R84), with the operands R83 names. -/

namespace Sys2Proof

/-- A command. The operands are the unsigned fields of the command word (R83), each at the width its
format gives it (R82), so that every term is the command of exactly one legal word. -/
inductive Instr where
  /-- No operation (R180). -/
  | nop
  /-- Field addition of `a` and `b` (R110). -/
  | gadd (a b : Byte)
  /-- Field subtraction, `a` minus `b` (R111). -/
  | gsub (a b : Byte)
  /-- Field multiplication of `a` and `b` (R112). -/
  | gmul (a b : Byte)
  /-- Field division, `a` by `b` (R113). -/
  | gdiv (a b : Byte)
  /-- Field power, `a` to the exponent `e` (R114). -/
  | gpow (a : Byte) (e : BitVec 16)
  /-- Clear status (R181). -/
  | clrs
  /-- Configure from dataShards `k` and parityShards `m` (R122). -/
  | cfge (k m : Byte)
  /-- Configure from dataShards `k` and totalShards `m` (R123). -/
  | cfgd (k m : Byte)
  /-- Read the evaluation point of shard index `idx` (R124). -/
  | evpt (idx : Byte)
  /-- Value-form systematic encode (R143). -/
  | encv
  /-- Coefficient-form systematic encode (R144). -/
  | encc
  /-- Decode from the shard list (R160). -/
  | dec
  /-- Decode the last K positions of the codeword (R161). -/
  | decl
  deriving DecidableEq, Repr

end Sys2Proof
end

