-- ==== Sys2Proof/Decode.lean ====
section
/-! DEFINITION. The command word: formats, opcodes and legality masks (R82 to R85), the decode function (R87), the encoder (R82), byte lanes (R58). -/

namespace Sys2Proof

/-- The five formats of R82. -/
inductive Format where
  | z | r2 | pw | cf | ix
  deriving DecidableEq, Repr

/-- The fourteen mnemonics of R84. -/
inductive Mnemonic where
  | nop | gadd | gsub | gmul | gdiv | gpow | clrs | cfge | cfgd | evpt | encv | encc | dec | decl
  deriving DecidableEq, Repr

/-- Why a word is illegal (R86). -/
inductive Illegal where
  /-- The opcode is one of the 242 that R84 does not assign. -/
  | unassignedOpcode
  /-- A reserved bit of the opcode's format is set (R85). -/
  | reservedBits
  deriving DecidableEq, Repr

/-- The format's legality mask: a 1 marks a bit that is checked (R85). -/
def Format.mask : Format → Word
  | .z => 0xFFFFFFFF
  | .r2 => 0xFF0000FF
  | .pw => 0x000000FF
  | .cf => 0xFF0000FF
  | .ix => 0xFFFF00FF

/-- The opcode map (R84): the value of OP. -/
def Mnemonic.opcode : Mnemonic → Byte
  | .nop => 0x00
  | .gadd => 0x01
  | .gsub => 0x02
  | .gmul => 0x03
  | .gdiv => 0x04
  | .gpow => 0x05
  | .clrs => 0x0F
  | .cfge => 0x10
  | .cfgd => 0x11
  | .evpt => 0x12
  | .encv => 0x20
  | .encc => 0x21
  | .dec => 0x30
  | .decl => 0x31

/-- The opcode map (R84): the command's format. -/
def Mnemonic.format : Mnemonic → Format
  | .nop | .clrs | .encv | .encc | .dec | .decl => .z
  | .gadd | .gsub | .gmul | .gdiv => .r2
  | .gpow => .pw
  | .cfge | .cfgd => .cf
  | .evpt => .ix

/-- A word's match value: OP in bits [7:0], zero elsewhere (R85). -/
def Mnemonic.matchValue (x : Mnemonic) : Word := x.opcode.setWidth 32

/-- "A word is legal for mnemonic X iff (w & mask_X) == match_X" (R85). -/
abbrev Mnemonic.legal (x : Mnemonic) (w : Word) : Prop := w &&& x.format.mask = x.matchValue

/-- The mnemonic of a command (R84). -/
def Instr.mnemonic : Instr → Mnemonic
  | .nop => .nop
  | .gadd _ _ => .gadd
  | .gsub _ _ => .gsub
  | .gmul _ _ => .gmul
  | .gdiv _ _ => .gdiv
  | .gpow _ _ => .gpow
  | .clrs => .clrs
  | .cfge _ _ => .cfge
  | .cfgd _ _ => .cfgd
  | .evpt _ => .evpt
  | .encv => .encv
  | .encc => .encc
  | .dec => .dec
  | .decl => .decl

/-- Every mnemonic, in the order of R84. -/
def Mnemonic.all : List Mnemonic :=
  [.nop, .gadd, .gsub, .gmul, .gdiv, .gpow, .clrs, .cfge, .cfgd, .evpt, .encv, .encc, .dec, .decl]

/-- The command of a mnemonic with its operands: `a` = A, K or IDX, `b` = B or M, `e` = E (R83). -/
def Mnemonic.command (x : Mnemonic) (a b : Byte) (e : BitVec 16) : Instr :=
  match x with
  | .nop => .nop
  | .gadd => .gadd a b
  | .gsub => .gsub a b
  | .gmul => .gmul a b
  | .gdiv => .gdiv a b
  | .gpow => .gpow a e
  | .clrs => .clrs
  | .cfge => .cfge a b
  | .cfgd => .cfgd a b
  | .evpt => .evpt a
  | .encv => .encv
  | .encc => .encc
  | .dec => .dec
  | .decl => .decl

/-- Decoding, total on every word (R87): OP = w[7:0] names the mnemonic (R81, R84), the format's reserved bits
must be zero (R85), and the operands are A = K = IDX = w[15:8], B = M = w[23:16] and E = w[31:16] (R83). -/
def decode (w : Word) : Except Illegal Instr :=
  match Mnemonic.all.find? fun x => x.opcode == w.extractLsb' 0 8 with
  | none => .error .unassignedOpcode
  | some x =>
    if x.legal w then .ok (x.command (w.extractLsb' 8 8) (w.extractLsb' 16 8) (w.extractLsb' 16 16))
    else .error .reservedBits

/-- Byte lane `j` of a word carries bits [8j+7:8j]: little-endian (R58). -/
def laneByte (w : Word) (j : Nat) : Byte := w.extractLsb' (8 * j) 8

/-- The word whose byte lanes, the lowest first, are `b0` to `b3` (R58). -/
def wordOfLanes (b0 b1 b2 b3 : Byte) : Word :=
  b0.setWidth 32 ||| b1.setWidth 32 <<< 8 ||| b2.setWidth 32 <<< 16 ||| b3.setWidth 32 <<< 24

/-- Decode a command given as the four byte lanes of its word (R58, R80). -/
def decodeLanes (b0 b1 b2 b3 : Byte) : Except Illegal Instr := decode (wordOfLanes b0 b1 b2 b3)

/-- The 32-bit word of a table row's bits: the bits of `w` below `nbits`, every other bit zero. -/
def tableWord (nbits w : Nat) : Word := BitVec.ofNat 32 (w % 2 ^ nbits)

/-- What the decoder reads from a command whose bits the opcode table numbers as `w`. A command is one
32-bit word (R80), laid out by its byte lanes (R58). -/
def decodeTableWord (nbits w : Nat) : Option Instr :=
  let v := tableWord nbits w
  match decodeLanes (laneByte v 0) (laneByte v 1) (laneByte v 2) (laneByte v 3) with
  | .ok i => some i
  | .error _ => none

/-- Format Z: OP in w[7:0], no operand, zeros above (R82). -/
def encodeZ (op : Byte) : Word := op.setWidth 32

/-- Formats R2 and CF: OP in w[7:0], `lo` in w[15:8], `hi` in w[23:16], zeros above (R82). -/
def encodePair (op lo hi : Byte) : Word :=
  op.setWidth 32 ||| lo.setWidth 32 <<< 8 ||| hi.setWidth 32 <<< 16

/-- Format PW: OP in w[7:0], `a` in w[15:8], `e` in w[31:16] (R82). -/
def encodePw (op a : Byte) (e : BitVec 16) : Word :=
  op.setWidth 32 ||| a.setWidth 32 <<< 8 ||| e.setWidth 32 <<< 16

/-- Format IX: OP in w[7:0], `idx` in w[15:8], zeros above (R82). -/
def encodeIx (op idx : Byte) : Word := op.setWidth 32 ||| idx.setWidth 32 <<< 8

/-- The command word of a command, by the layouts of R82 and the opcodes of R84. -/
def encode : Instr → Word
  | .nop => encodeZ 0x00
  | .gadd a b => encodePair 0x01 a b
  | .gsub a b => encodePair 0x02 a b
  | .gmul a b => encodePair 0x03 a b
  | .gdiv a b => encodePair 0x04 a b
  | .gpow a e => encodePw 0x05 a e
  | .clrs => encodeZ 0x0F
  | .cfge k m => encodePair 0x10 k m
  | .cfgd k m => encodePair 0x11 k m
  | .evpt idx => encodeIx 0x12 idx
  | .encv => encodeZ 0x20
  | .encc => encodeZ 0x21
  | .dec => encodeZ 0x30
  | .decl => encodeZ 0x31

end Sys2Proof
end

