-- ==== Sys2Proof/Config.lean ====
section
/-! DEFINITION. What one unit fixes: the open parameters GF_POLY and UNIT_BASE, and the sizes the spec states. -/

namespace Sys2Proof

/-- The 30 legal values of `GF_POLY`: the irreducible polynomials of degree 8 over GF(2), bit i the
coefficient of x^i (R5, R12). -/
def Config.legalPolys : List (BitVec 9) :=
  [0x11B, 0x11D, 0x12B, 0x12D, 0x139, 0x13F, 0x14D, 0x15F, 0x163, 0x165] ++
  [0x169, 0x171, 0x177, 0x17B, 0x187, 0x18B, 0x18D, 0x19F, 0x1A3, 0x1A9] ++
  [0x1B1, 0x1BD, 0x1C3, 0x1CF, 0x1D7, 0x1DD, 0x1E7, 0x1F3, 0x1F5, 0x1F9]

/-- Which legal polynomial this unit has. The spec leaves it OPEN (R5, D2, U1), so the constant has no
body and nothing can be proved of it but that it names one of the 30 (log entry 1). -/
opaque Config.gfPolyIndex : Fin 30

/-- The field reduction polynomial of this unit, `GF_POLY` (R5). -/
def Config.gfPoly : BitVec 9 := Config.legalPolys.get (Config.gfPolyIndex.cast (by decide))

/-- Which 4 KiB page of the host's byte addresses the window stands on. The spec leaves UNIT_BASE OPEN,
but for being a multiple of 0x1000 (R8, D19, U11), so the constant has no body (log entry 2). -/
opaque Config.unitPage : Nat

/-- The size of the window in bytes (R51). -/
def Config.windowSize : Nat := 0x1000

/-- The first host byte address of the window, `UNIT_BASE` (R8). -/
@[irreducible] def Config.unitBase : Nat := Config.unitPage * Config.windowSize

/-- The largest total shard count, `MAX_POINTS` (R6). -/
def Config.maxPoints : Nat := 255

/-- The number of entries of each buffer (R7). -/
def Config.capacity : Nat := 255

end Sys2Proof
end

