-- ==== Sys2Proof/Machine/State.lean ====
section
/-! DEFINITION. The machine's state, its faults and refusals, and the state after reset (R44, R215, R230). -/

namespace Sys2Proof.Machine

/-- The four buffers (R25). -/
inductive Buf where
  | msg | cw | shIdx | shVal
  deriving DecidableEq, Repr

/-- The seven registers (R22). -/
inductive Reg where
  | cmd | status | result | config | msgLen | cwLen | shCnt
  deriving DecidableEq, Repr

/-- The status codes 0 to 7, in the order of the table of R200. -/
inductive StatusCode where
  | ok | invalidInputLength | insufficientShards | duplicateOrInvalidIndex
  | divisionByZero | configurationError | notConfigured | illegalCommand
  deriving DecidableEq, Repr

/-- A buffer's contents: (entry index, byte) pairs, indices strictly rising; an entry that is not listed
is unwritten (R25). -/
abbrev Memory := List Host.Cell

/-- Where a host access goes: a window offset (R92), or a host byte address (R51). -/
inductive Target where
  | window (off : Offset)
  | address (a : Nat)
  deriving DecidableEq, Repr

/-- One thing the world outside does to the unit (R70). -/
inductive HostEvent where
  /-- A read of `n` bytes, `MemRead` of R13. -/
  | read (target : Target) (n : Nat)
  /-- A write of `n` bytes, `MemWrite` of R13; `v` is the data, of which the low `8 * n` bits count. -/
  | write (target : Target) (n : Nat) (v : Word)
  /-- The platform's reset signal (R231). -/
  | reset
  deriving DecidableEq, Repr

/-- Why a run stops with no good end: the two kinds of the fault record (R215). -/
inductive Fault where
  /-- Raised by the host window on an access it does not admit (R54 to R57). The access changes nothing.
  Safe: the hardware answers with a bus error and may go on, the model stops. -/
  | busFault (off : Offset)
  /-- Raised by a host read of an unwritten entry and by a command that reads one (R27, U3).
  Safe: the hardware goes on with a byte the spec does not fix, the model stops. -/
  | unwrittenRead (b : Buf) (i : Nat)
  deriving DecidableEq, Repr

/-- Why the model gives no meaning. -/
inductive Refusal where
  /-- Raised by an arm of `exec` whose command has no meaning yet; no arm raises it now. Safe: it stops. -/
  | notModelled (mnemonic : String)
  /-- Raised by a host access at an address outside the window: "Addresses outside the window are the
  platform's and are not part of this spec" (R51). Safe: the model stops. -/
  | outsideWindow (a : Nat)
  deriving DecidableEq, Repr

/-- The unit's architectural state (R44), then the host's side of a run (R183), which is the model's own
and no hardware state. -/
structure State where
  /-- STATUS.CODE (R28). -/
  statusCode : Byte
  /-- STATUS.STICKY (R28). -/
  statusSticky : Bool
  /-- RESULT.R (R31). -/
  result : Byte
  /-- CONFIG.K, dataShards (R32). -/
  configK : Byte
  /-- CONFIG.N, totalShards (R32). -/
  configN : Byte
  /-- CONFIG.VALID (R32). -/
  configValid : Bool
  /-- MSG_LEN (R35). -/
  msgLen : Byte
  /-- CW_LEN (R36). -/
  cwLen : Byte
  /-- SH_CNT (R37). -/
  shCnt : Byte
  /-- The message buffer (R25). -/
  msg : Memory
  /-- The codeword buffer (R25). -/
  cw : Memory
  /-- The shard list's indices (R25). -/
  shIdx : Memory
  /-- The shard list's values (R25). -/
  shVal : Memory
  /-- The host's events still to come, the next one first (R183, log entry 5). -/
  pending : List HostEvent
  /-- The values the host's reads have returned, in order (R183, log entry 6). -/
  reads : List Word
  deriving DecidableEq, Repr

/-- The state after reset (R230): every register zero, CONFIG not valid, every buffer entry unwritten.
The host's side is empty (DESIGN CHOICE, log entries 5 and 6). -/
def State.reset : State where
  statusCode := 0
  statusSticky := false
  result := 0
  configK := 0
  configN := 0
  configValid := false
  msgLen := 0
  cwLen := 0
  shCnt := 0
  msg := []
  cw := []
  shIdx := []
  shVal := []
  pending := []
  reads := []

/-- What a step, a command and a host access answer. -/
abbrev Answer := Host.Outcome State Fault Refusal

end Sys2Proof.Machine
end

