-- ==== Sys2Proof/Machine/Ops.lean ====
section
/-! DEFINITION. The named operations over buffers and registers, and the window's address map (R13, R22, R25, R51, R52). -/

namespace Sys2Proof.Machine

/-- What an entry that is not listed holds: no value, so that reading it is a fault (R25, R27). -/
def Memory.unlisted : Option Byte := none

/-- The byte entry `i` holds, or none if the entry is unwritten (R25). -/
def Memory.lookup : Memory → Nat → Option Byte
  | [], _ => Memory.unlisted
  | (a, v) :: m, i => if a = i then some v else Memory.lookup m i

/-- Write one entry, keeping the pairs in rising order (R59). -/
def Memory.store : Memory → Nat → Byte → Memory
  | [], i, v => [(i, v)]
  | (a, u) :: m, i, v =>
    if i < a then (i, v) :: (a, u) :: m
    else if i = a then (i, v) :: m
    else (a, u) :: Memory.store m i v

/-- Write the bytes `vs` into the entries from `i` up. -/
def Memory.storeAll : Memory → Nat → List Byte → Memory
  | m, _, [] => m
  | m, i, v :: vs => Memory.storeAll (Memory.store m i v) (i + 1) vs

/-- The canonical form of a buffer: indices strictly rising, all of them entries the buffer has (R25).
An unlisted entry holds no value, so no listed byte equals what an unlisted entry reads as. -/
abbrev Memory.wf (m : Memory) : Prop :=
  m.Pairwise (fun c d => c.1 < d.1) ∧ ∀ c ∈ m, c.1 < Config.capacity

/-- The contents of buffer `b` (R25). -/
def State.buf (s : State) : Buf → Memory
  | .msg => s.msg
  | .cw => s.cw
  | .shIdx => s.shIdx
  | .shVal => s.shVal

/-- The state with buffer `b`'s contents replaced. -/
def State.withBuf (s : State) (b : Buf) (m : Memory) : State :=
  match b with
  | .msg => { s with msg := m }
  | .cw => { s with cw := m }
  | .shIdx => { s with shIdx := m }
  | .shVal => { s with shVal := m }

/-- `Buf(B, i)`: entry `i` of buffer `b`, none if it is unwritten (R13). -/
def State.readEntry (s : State) (b : Buf) (i : Nat) : Option Byte := (s.buf b).lookup i

/-- `Buf(B, i) <- v` (R13). -/
def State.writeEntry (s : State) (b : Buf) (i : Nat) (v : Byte) : State :=
  s.withBuf b ((s.buf b).store i v)

/-- Write the bytes `vs` to the entries of `b` from index 0 up. -/
def State.writeEntries (s : State) (b : Buf) (vs : List Byte) : State :=
  s.withBuf b ((s.buf b).storeAll 0 vs)

/-- Set STATUS (R28). -/
def State.setStatus (s : State) (code : Byte) (sticky : Bool) : State :=
  { s with statusCode := code, statusSticky := sticky }

/-- Set RESULT.R (R31). -/
def State.setResult (s : State) (r : Byte) : State := { s with result := r }

/-- Establish the configuration (K, N), with VALID = 1 (R32). -/
def State.setConfig (s : State) (k n : Byte) : State :=
  { s with configK := k, configN := n, configValid := true }

/-- Set MSG_LEN (R35). -/
def State.setMsgLen (s : State) (v : Byte) : State := { s with msgLen := v }

/-- Set CW_LEN (R36). -/
def State.setCwLen (s : State) (v : Byte) : State := { s with cwLen := v }

/-- Set SH_CNT (R37). -/
def State.setShCnt (s : State) (v : Byte) : State := { s with shCnt := v }

/-- Set the host's events still to come (R183). -/
def State.setPending (s : State) (es : List HostEvent) : State := { s with pending := es }

/-- Record a value a read returned to the host (R183). -/
def State.pushRead (s : State) (w : Word) : State := { s with reads := s.reads ++ [w] }

/-- The unit after the platform's reset: every piece of the unit's state as R230 says and nothing else
changed, so the host's side stays (R231, log entry 7). -/
def State.resetUnit (s : State) : State :=
  { State.reset with pending := s.pending, reads := s.reads }

/-- STATUS as a word: CODE in [7:0], STICKY in [8], zeros above (R28). -/
def State.statusWord (s : State) : Word :=
  s.statusCode.setWidth 32 ||| (BitVec.ofBool s.statusSticky).setWidth 32 <<< 8

/-- An 8-bit register as a word: zeros in [31:8] (R31, R35 to R37). -/
def byteWord (v : Byte) : Word := v.setWidth 32

/-- CONFIG as a word: K in [7:0], N in [15:8], VALID in [16], zeros above (R32). -/
def State.configWord (s : State) : Word :=
  s.configK.setWidth 32 ||| s.configN.setWidth 32 <<< 8 |||
    (BitVec.ofBool s.configValid).setWidth 32 <<< 16

/-- The value a 4-byte read of a register returns; none for CMD, which cannot be read (R22, R56, R59). -/
def State.readReg (s : State) : Reg → Option Word
  | .cmd => none
  | .status => some s.statusWord
  | .result => some (byteWord s.result)
  | .config => some s.configWord
  | .msgLen => some (byteWord s.msgLen)
  | .cwLen => some (byteWord s.cwLen)
  | .shCnt => some (byteWord s.shCnt)

/-- The low byte v[7:0] of a written word, the part a length register keeps (R35 to R37). -/
def lowByte (v : Word) : Byte := v.setWidth 8

/-- A 4-byte write to a length register stores v[7:0]; none for a register the host may not write so
(R56, R59). CMD stores nothing: its write is a command (R38). -/
def State.writeLength (s : State) (r : Reg) (v : Word) : Option State :=
  match r with
  | .msgLen => some (s.setMsgLen (lowByte v))
  | .cwLen => some (s.setCwLen (lowByte v))
  | .shCnt => some (s.setShCnt (lowByte v))
  | .cmd | .status | .result | .config => none

/-- The register whose word stands at an offset, if one does (R52). -/
def regAt (off : Offset) : Option Reg :=
  if off = 0x000 then some .cmd
  else if off = 0x004 then some .status
  else if off = 0x008 then some .result
  else if off = 0x00C then some .config
  else if off = 0x010 then some .msgLen
  else if off = 0x014 then some .cwLen
  else if off = 0x018 then some .shCnt
  else none

/-- The buffer whose entries stand in a 256-byte page of the window, if any (R52). -/
def bufAtPage (page : Nat) : Option Buf :=
  if page = 1 then some .msg
  else if page = 2 then some .cw
  else if page = 3 then some .shIdx
  else if page = 4 then some .shVal
  else none

/-- The buffer entry that stands at an offset, if one does: 0x100 + i, 0x200 + i, 0x300 + i and
0x400 + i for i = 0..254 (R52). -/
def entryAt (off : Offset) : Option (Buf × Nat) :=
  if off.toNat % 256 < Config.capacity then
    (bufAtPage (off.toNat / 256)).map fun b => (b, off.toNat % 256)
  else none

/-- The window offset of a register (R52). -/
def Reg.offset : Reg → Offset
  | .cmd => 0x000
  | .status => 0x004
  | .result => 0x008
  | .config => 0x00C
  | .msgLen => 0x010
  | .cwLen => 0x014
  | .shCnt => 0x018

/-- The window offset of a buffer's entry 0 (R52). -/
def Buf.base : Buf → Nat
  | .msg => 0x100
  | .cw => 0x200
  | .shIdx => 0x300
  | .shVal => 0x400

/-- The window offset of entry `i` of a buffer (R52, R92). -/
def Buf.offset (b : Buf) (i : Nat) : Offset := BitVec.ofNat 12 (b.base + i)

/-- The offset of a host byte address that lies in the window: UNIT_BASE ≤ a < UNIT_BASE + 0x1000 (R51). -/
def windowOffset (a : Nat) : Option Offset :=
  if Config.unitBase ≤ a ∧ a < Config.unitBase + Config.windowSize then
    some (BitVec.ofNat 12 (a - Config.unitBase))
  else none

/-- The offset an access goes to. An address outside the window is the platform's (R51). -/
def Target.resolve : Target → Except Refusal Offset
  | .window off => .ok off
  | .address a =>
    match windowOffset a with
    | some off => .ok off
    | none => .error (.outsideWindow a)

end Sys2Proof.Machine
end

