-- ==== Sys2Proof/Machine/Flags.lean ====
section
/-! DEFINITION. STATUS, the unit's only flags (R45): the numbers of the status codes (R200) and how a command ends, `done` or `fail` (R14). -/

namespace Sys2Proof.Machine

/-- The number of a status code (R200). -/
def StatusCode.toByte : StatusCode → Byte
  | .ok => 0
  | .invalidInputLength => 1
  | .insufficientShards => 2
  | .duplicateOrInvalidIndex => 3
  | .divisionByZero => 4
  | .configurationError => 5
  | .notConfigured => 6
  | .illegalCommand => 7

/-- `done`: STATUS.CODE <- 0, STATUS.STICKY unchanged (R14). `s` holds the command's outputs. -/
def commandDone (s : State) : Answer := .next (s.setStatus StatusCode.ok.toByte s.statusSticky)

/-- `fail CODE`: STATUS.CODE <- CODE, STATUS.STICKY <- 1, and no other state written (R14, R203). `s` is the
state before the command. -/
def commandFail (c : StatusCode) (s : State) : Answer := .next (s.setStatus c.toByte true)

end Sys2Proof.Machine
end

