-- ==== Sys2Proof/Machine/Control.lean ====
section
/-! DEFINITION. The housekeeping commands NOP and CLRS (R180, R181). -/

namespace Sys2Proof.Machine

/-- NOP: `done` (R180). -/
def execNop (s : State) : Answer := commandDone s

/-- CLRS: STATUS.STICKY <- 0, then `done` (R181). -/
def execClrs (s : State) : Answer := commandDone (s.setStatus s.statusCode false)

end Sys2Proof.Machine
end

