-- ==== Sys2Proof/Machine/Field.lean ====
section
/-! DEFINITION. The field functions of R100 to R107 and Lagrange evaluation (R140), pure and for any reduction polynomial `p`. -/

namespace Sys2Proof.Machine

/-- Field addition: bitwise exclusive-or (R100). -/
def gfAdd (a b : Byte) : Byte := a ^^^ b

/-- Field subtraction: the same function (R101). -/
def gfSub (a b : Byte) : Byte := a ^^^ b

/-- Carry-less product: the exclusive-or of `a << i` over the bits i of `b` that are set (R102). -/
def clmul (a b : Byte) : BitVec 15 :=
  (List.range 8).foldl (fun c i => if b.getLsbD i then c ^^^ (a.setWidth 15 <<< i) else c) 0

/-- One reduction step: clear bit `d` by adding GF_POLY shifted to it (R103). -/
def reduceStep (p : BitVec 9) (c : BitVec 15) (d : Nat) : BitVec 15 :=
  if c.getLsbD d then c ^^^ (p.setWidth 15 <<< (d - 8)) else c

/-- Reduction modulo `p`: steps for d from 14 down to 8, then c[7:0] (R103). -/
def gfReduce (p : BitVec 9) (c : BitVec 15) : Byte :=
  ([14, 13, 12, 11, 10, 9, 8].foldl (reduceStep p) c).setWidth 8

/-- Field multiplication (R104). -/
def gfMul (p : BitVec 9) (a b : Byte) : Byte := gfReduce p (clmul a b)

/-- The inverse of `b` ≠ 0: "the unique byte c with gf_mul(b, c) = 1" (R105), found by trying every byte.
For `b` = 0 the spec defines none and no rule asks for one (log entry 8). -/
def gfInv (p : BitVec 9) (b : Byte) : Byte :=
  (((List.range 256).map (BitVec.ofNat 8)).find? fun c => gfMul p b c == 1).getD 0

/-- Field division; none is the error DivisionByZero (R106). -/
def gfDiv (p : BitVec 9) (a b : Byte) : Option Byte :=
  if b = 0 then none else some (gfMul p a (gfInv p b))

/-- Field power: from 1, multiply by `a`, `n` times (R107). -/
def gfPow (p : BitVec 9) (a : Byte) : Nat → Byte
  | 0 => 1
  | n + 1 => gfMul p (gfPow p a n) a

/-- The list of the values, or none if one of them is an error: "if any … was DivisionByZero" (R143). -/
def allSome {α : Type} : List (Option α) → Option (List α)
  | [] => some []
  | none :: _ => none
  | some v :: l => (allSome l).map (v :: ·)

/-- The Lagrange basis term L_j(x) over the points `xs` (R140): the product, folded from 1, of
(x - xs[j']) / (xs[j] - xs[j']) over j' ≠ j. None is the error DivisionByZero. -/
def basis (p : BitVec 9) (xs : List Byte) (j : Nat) (x : Byte) : Option Byte :=
  (allSome (((List.range xs.length).filter (· ≠ j)).map fun j' =>
    gfDiv p (gfSub x (xs.getD j' 0)) (gfSub (xs.getD j 0) (xs.getD j' 0)))).map
    (·.foldl (gfMul p) 1)

/-- Lagrange evaluation at `x` through the points `xs` with values `ys` (R140). None is the error
DivisionByZero. -/
def interp (p : BitVec 9) (xs ys : List Byte) (x : Byte) : Option Byte :=
  (allSome ((List.range xs.length).map fun j =>
    (basis p xs j x).map (gfMul p (ys.getD j 0)))).map
    (·.foldl gfAdd 0)

/-- Horner evaluation at `x` of the polynomial with coefficients `m`, constant term first: from 0, for j
from K-1 down to 0, r <- r·x + m[j] (R144). -/
def horner (p : BitVec 9) (m : List Byte) (x : Byte) : Byte :=
  m.foldr (fun mj r => gfAdd (gfMul p r x) mj) 0

end Sys2Proof.Machine
end

