-- ==== Sys2Proof/Machine/Operands.lean ====
section
/-! DEFINITION. What a command takes its operands from besides its word: evaluation points (R120) and ranges of buffer entries (R13, R27). -/

namespace Sys2Proof.Machine

/-- The evaluation point of shard index `i`: the field element i + 1 (R120). -/
def point (i : Nat) : Byte := BitVec.ofNat 8 (i + 1)

/-- The evaluation points of a list of shard indices, in order. -/
def points (is : List Nat) : List Byte := is.map point

/-- Read the entries `is` of buffer `b`, in that order; the first unwritten one is the fault (R27, log
entry 3). -/
def State.gather (s : State) (b : Buf) : List Nat → Except Fault (List Byte)
  | [] => .ok []
  | i :: is =>
    match s.readEntry b i with
    | none => .error (.unwrittenRead b i)
    | some v =>
      match State.gather s b is with
      | .error f => .error f
      | .ok vs => .ok (v :: vs)

end Sys2Proof.Machine
end

