-- ==== Sys2Proof/Machine/Decoder.lean ====
section
/-! DEFINITION. The Lagrange-interpolation decoders DEC and DECL (R160 to R162). -/

namespace Sys2Proof.Machine

/-- The K message symbols: the values at point(0) to point(K-1) of the polynomial through the points `xs`
with values `ys` (R160). None is the error DivisionByZero. -/
def decodedMessage (p : BitVec 9) (k : Nat) (xs ys : List Byte) : Option (List Byte) :=
  allSome ((List.range k).map fun i => interp p xs ys (point i))

/-- Decode from the points of the shard indices `is` with values `ys`: write the message to MSG[0..K-1] and
K to MSG_LEN, and end; or fail with DivisionByZero (R160, R161). -/
def decodeFrom (is : List Nat) (ys : List Byte) (s : State) : Answer :=
  match decodedMessage Config.gfPoly s.configK.toNat (points is) ys with
  | none => commandFail .divisionByZero s
  | some r => commandDone ((s.writeEntries .msg r).setMsgLen s.configK)

/-- The list entries DEC uses, given the list's shard indices `idx`: the `k` entries with the smallest
indices, in ascending index order (R162). -/
def selectEntries (k : Nat) (idx : List Nat) : List Nat :=
  ((List.range idx.length).insertionSort fun e e' => idx.getD e 0 ≤ idx.getD e' 0).take k

/-- DEC, decode from the shard list (R160). -/
def execDec (s : State) : Answer :=
  if s.configValid = false then commandFail .notConfigured s
  else if s.shCnt.toNat < s.configK.toNat then commandFail .insufficientShards s
  else
    match s.gather .shIdx (List.range s.shCnt.toNat) with
    | .error f => .fault f
    | .ok raw =>
      let idx := raw.map BitVec.toNat
      if idx.any fun i => s.configN.toNat ≤ i then commandFail .duplicateOrInvalidIndex s
      else if ¬ idx.Nodup then commandFail .duplicateOrInvalidIndex s
      else
        let sel := selectEntries s.configK.toNat idx
        match s.gather .shVal sel with
        | .error f => .fault f
        | .ok ys => decodeFrom (sel.map fun e => idx.getD e 0) ys s

/-- The positions DECL reads: N-K to N-1 (R161). -/
def lastPositions (k n : Nat) : List Nat := List.range' (n - k) k

/-- DECL, decode the last K positions of a full codeword (R161, R167). -/
def execDecl (s : State) : Answer :=
  if s.configValid = false then commandFail .notConfigured s
  else if s.cwLen ≠ s.configN then commandFail .invalidInputLength s
  else
    let is := lastPositions s.configK.toNat s.configN.toNat
    match s.gather .cw is with
    | .error f => .fault f
    | .ok ys => decodeFrom is ys s

end Sys2Proof.Machine
end

