-- ==== Sys2Proof/Machine/Encoder.lean ====
section
/-! DEFINITION. The systematic encoders ENCV and ENCC (R142 to R144). -/

namespace Sys2Proof.Machine

/-- The value-form codeword of message `m` under (k, n): c[i] is m[i] for i < k, else the value at point(i)
of the polynomial through the message (R143). None is the error DivisionByZero. -/
def valueCodeword (p : BitVec 9) (k n : Nat) (m : List Byte) : Option (List Byte) :=
  allSome ((List.range n).map fun i =>
    if i < k then some (m.getD i 0) else interp p (points (List.range k)) m (point i))

/-- The coefficient-form codeword of message `m` under (k, n): c[i] is m[i] for i < k, else the value at
point(i) of the polynomial whose coefficients are the message (R144). -/
def coeffCodeword (p : BitVec 9) (k n : Nat) (m : List Byte) : List Byte :=
  (List.range n).map fun i => if i < k then m.getD i 0 else horner p m (point i)

/-- The encoders' checks, in order, and then the message MSG[0..K-1] (R142). -/
def withMessage (s : State) (body : List Byte → Answer) : Answer :=
  if s.configValid = false then commandFail .notConfigured s
  else if s.msgLen ≠ s.configK then commandFail .invalidInputLength s
  else
    match s.gather .msg (List.range s.configK.toNat) with
    | .error f => .fault f
    | .ok m => body m

/-- Write the codeword to CW[0..N-1] and N to CW_LEN, and end (R143, R144). -/
def codewordDone (c : List Byte) (s : State) : Answer :=
  commandDone ((s.writeEntries .cw c).setCwLen s.configN)

/-- ENCV, value-form encode (R143). -/
def execEncv (s : State) : Answer :=
  withMessage s fun m =>
    match valueCodeword Config.gfPoly s.configK.toNat s.configN.toNat m with
    | none => commandFail .divisionByZero s
    | some c => codewordDone c s

/-- ENCC, coefficient-form encode (R144). -/
def execEncc (s : State) : Answer :=
  withMessage s fun m =>
    codewordDone (coeffCodeword Config.gfPoly s.configK.toNat s.configN.toNat m) s

end Sys2Proof.Machine
end

