-- ==== Sys2Proof/Machine/FieldUnit.lean ====
section
/-! DEFINITION. The field commands GADD, GSUB, GMUL, GDIV, GPOW (R110 to R115). -/

namespace Sys2Proof.Machine

/-- End a command with the field element `r` in RESULT (R31). -/
def resultDone (r : Byte) (s : State) : Answer := commandDone (s.setResult r)

/-- GADD (R110). -/
def execGadd (a b : Byte) (s : State) : Answer := resultDone (gfAdd a b) s

/-- GSUB (R111). -/
def execGsub (a b : Byte) (s : State) : Answer := resultDone (gfSub a b) s

/-- GMUL (R112). -/
def execGmul (a b : Byte) (s : State) : Answer := resultDone (gfMul Config.gfPoly a b) s

/-- GDIV: fails with DivisionByZero if `b` = 0 (R113). -/
def execGdiv (a b : Byte) (s : State) : Answer :=
  match gfDiv Config.gfPoly a b with
  | none => commandFail .divisionByZero s
  | some r => resultDone r s

/-- GPOW (R114). -/
def execGpow (a : Byte) (e : BitVec 16) (s : State) : Answer :=
  resultDone (gfPow Config.gfPoly a e.toNat) s

end Sys2Proof.Machine
end

