-- ==== Sys2Proof/Machine/Points.lean ====
section
/-! DEFINITION. Configuration and evaluation points: CFGE, CFGD, EVPT (R121 to R124). -/

namespace Sys2Proof.Machine

/-- A legal configuration, on exact integers: 1 ≤ K, K ≤ N and N ≤ 255 (R121). -/
abbrev legalConfig (k n : Nat) : Prop := 1 ≤ k ∧ k ≤ n ∧ n ≤ Config.maxPoints

/-- Establish the configuration (k, n) if it is legal, else fail with ConfigurationError (R122, R123). -/
def configure (k : Byte) (n : Nat) (s : State) : Answer :=
  if legalConfig k.toNat n then commandDone (s.setConfig k (BitVec.ofNat 8 n))
  else commandFail .configurationError s

/-- CFGE: `k` data shards and `m` parity shards; n is the exact sum (R122). -/
def execCfge (k m : Byte) (s : State) : Answer := configure k (k.toNat + m.toNat) s

/-- CFGD: `k` data shards of `m` shards in all (R123). -/
def execCfgd (k m : Byte) (s : State) : Answer := configure k m.toNat s

/-- EVPT: the evaluation point of index `idx` (R124). -/
def execEvpt (idx : Byte) (s : State) : Answer :=
  if s.configValid = false then commandFail .notConfigured s
  else if s.configN.toNat ≤ idx.toNat then commandFail .duplicateOrInvalidIndex s
  else resultDone (point idx.toNat) s

end Sys2Proof.Machine
end

