-- ==== Sys2Proof/Machine/Dispatch.lean ====
section
/-! DEFINITION. The one match from a command to its meaning (R90). -/

namespace Sys2Proof.Machine

def exec (i : Instr) (s : State) : Host.Outcome State Fault Refusal :=
  match i with
  | .nop => Sys2Proof.Machine.execNop s
  | .gadd a b => Sys2Proof.Machine.execGadd a b s
  | .gsub a b => Sys2Proof.Machine.execGsub a b s
  | .gmul a b => Sys2Proof.Machine.execGmul a b s
  | .gdiv a b => Sys2Proof.Machine.execGdiv a b s
  | .gpow a e => Sys2Proof.Machine.execGpow a e s
  | .clrs => Sys2Proof.Machine.execClrs s
  | .cfge k m => Sys2Proof.Machine.execCfge k m s
  | .cfgd k m => Sys2Proof.Machine.execCfgd k m s
  | .evpt idx => Sys2Proof.Machine.execEvpt idx s
  | .encv => Sys2Proof.Machine.execEncv s
  | .encc => Sys2Proof.Machine.execEncc s
  | .dec => Sys2Proof.Machine.execDec s
  | .decl => Sys2Proof.Machine.execDecl s

end Sys2Proof.Machine
end

