-- ==== Sys2Proof/Machine/Window.lean ====
section
/-! DEFINITION. Host accesses to the window, commands by CMD writes, reset, and the next host event (R53 to R60, R90, R183, R231). -/

namespace Sys2Proof.Machine

/-- A CMD write of `w`: execute what it decodes to; an illegal word is `fail IllegalCommand` (R86, R90). -/
def execWord (w : Word) (s : State) : Answer :=
  match decode w with
  | .ok i => exec i s
  | .error _ => commandFail .illegalCommand s

/-- A host read of `n` bytes at an offset: a register by 4 bytes, a buffer entry by 1 byte, anything else a
BusFault (R53 to R57, R59). The value returned is recorded; nothing else changes (R60). -/
def hostRead (off : Offset) (n : Nat) (s : State) : Answer :=
  if n = 4 then
    match regAt off with
    | none => .fault (.busFault off)
    | some r =>
      match s.readReg r with
      | none => .fault (.busFault off)
      | some w => .next (s.pushRead w)
  else if n = 1 then
    match entryAt off with
    | none => .fault (.busFault off)
    | some (b, i) =>
      match s.readEntry b i with
      | none => .fault (.unwrittenRead b i)
      | some v => .next (s.pushRead (byteWord v))
  else .fault (.busFault off)

/-- A host write of `n` bytes at an offset: to CMD a command, to a length register its low byte, to a buffer
entry one byte, anything else a BusFault (R53 to R57, R59). -/
def hostWrite (off : Offset) (n : Nat) (v : Word) (s : State) : Answer :=
  if n = 4 then
    match regAt off with
    | none => .fault (.busFault off)
    | some .cmd => execWord v s
    | some r =>
      match s.writeLength r v with
      | none => .fault (.busFault off)
      | some t => .next t
  else if n = 1 then
    match entryAt off with
    | none => .fault (.busFault off)
    | some (b, i) => .next (s.writeEntry b i (lowByte v))
  else .fault (.busFault off)

/-- Perform one host event. An access outside the window is the platform's (R51). -/
def performEvent (e : HostEvent) (s : State) : Answer :=
  match e with
  | .read target n =>
    match target.resolve with
    | .error r => .refused r
    | .ok off => hostRead off n s
  | .write target n v =>
    match target.resolve with
    | .error r => .refused r
    | .ok off => hostWrite off n v s
  | .reset => .next s.resetUnit

/-- Perform the host's next event; with none left the unit is idle and holds its state (R183, R216). -/
def performNext (s : State) : Answer :=
  match s.pending with
  | [] => .next s
  | e :: rest => performEvent e (s.setPending rest)

/-- The host event that a command word stands for: a 4-byte write to CMD (R89, R183). -/
def commandEvent (w : Word) : HostEvent := .write (.window Reg.cmd.offset) 4 w

/-- The state in which the host's next event writes the table word `w` to CMD (log entry 5). -/
def placeCommand (s : State) (nbits w : Nat) : State :=
  s.setPending (commandEvent (tableWord nbits w) :: s.pending)

end Sys2Proof.Machine
end

