-- ==== Sys2Proof/Machine/Step.lean ====
section
/-! DEFINITION. One step of the machine: the host's next event (R21, R183). -/

namespace Sys2Proof.Machine

/-- One step: perform the host's next event. -/
def step (s : State) : Host.Outcome State Fault Refusal := performNext s

/-- The state with a command placed where the next step takes its command from: the host's next event. -/
def State.withFetchWord (s : State) (nbits w : Nat) : State := placeCommand s nbits w

end Sys2Proof.Machine
end

