-- ==== Sys2Proof/WellFormed.lean ====
section
/-! DEFINITION. Well-formedness: the operand ranges of the command syntax (R83, R89) over commands written with plain numbers. -/

namespace Sys2Proof

/-- A command as the assembler syntax writes it (R89), its operands plain numbers, with the three
pseudo-instructions of R91. -/
inductive AsmCommand where
  | nop
  | gadd (a b : Nat)
  | gsub (a b : Nat)
  | gmul (a b : Nat)
  | gdiv (a b : Nat)
  | gpow (a n : Nat)
  | clrs
  | cfge (k p : Nat)
  | cfgd (k n : Nat)
  | evpt (i : Nat)
  | encv
  | encc
  | dec
  | decl
  /-- Pseudo-instruction: `GDIV 0x01, b` (R91). -/
  | ginv (b : Nat)
  /-- Pseudo-instruction: `GPOW a, 2` (R91). -/
  | gsqr (a : Nat)
  /-- Pseudo-instruction: `ENCV` (R91). -/
  | enc
  deriving DecidableEq, Repr

/-- An 8-bit operand's range, 0..255 (R83, R89). -/
def fitsByte (n : Nat) : Bool := n < 256

/-- The exponent's range, 0..65535 (R83, R89). -/
def fitsExponent (n : Nat) : Bool := n < 65536

/-- Every operand lies in its range. "An operand outside its range is an assembly error" (R89). -/
def AsmCommand.wellFormed : AsmCommand → Bool
  | .nop | .clrs | .encv | .encc | .dec | .decl | .enc => true
  | .gadd a b | .gsub a b | .gmul a b | .gdiv a b => fitsByte a && fitsByte b
  | .gpow a n => fitsByte a && fitsExponent n
  | .cfge k p => fitsByte k && fitsByte p
  | .cfgd k n => fitsByte k && fitsByte n
  | .evpt i => fitsByte i
  | .ginv b => fitsByte b
  | .gsqr a => fitsByte a

/-- The spelling of a command in the assembler syntax (R89). A command's operands are fields of fixed
width, so its spelling is always well formed. -/
def Instr.toAsm : Instr → AsmCommand
  | .nop => .nop
  | .gadd a b => .gadd a.toNat b.toNat
  | .gsub a b => .gsub a.toNat b.toNat
  | .gmul a b => .gmul a.toNat b.toNat
  | .gdiv a b => .gdiv a.toNat b.toNat
  | .gpow a e => .gpow a.toNat e.toNat
  | .clrs => .clrs
  | .cfge k m => .cfge k.toNat m.toNat
  | .cfgd k m => .cfgd k.toNat m.toNat
  | .evpt idx => .evpt idx.toNat
  | .encv => .encv
  | .encc => .encc
  | .dec => .dec
  | .decl => .decl

/-- A command is well formed when its spelling is. -/
def Instr.wellFormed (i : Instr) : Bool := i.toAsm.wellFormed

end Sys2Proof
end

