-- ==== Sys2Proof/Machine/Program.lean ====
section
/-! DEFINITION. Host programs: the assembler's commands and the access syntax, and the host events they stand for (R89, R91, R92, R183). -/

namespace Sys2Proof.Machine

/-- The command that a written command assembles to; none is an assembly error (R89, R91). -/
def assemble (c : AsmCommand) : Option Instr :=
  if c.wellFormed then
    match c with
    | .nop => some .nop
    | .gadd a b => some (.gadd (BitVec.ofNat 8 a) (BitVec.ofNat 8 b))
    | .gsub a b => some (.gsub (BitVec.ofNat 8 a) (BitVec.ofNat 8 b))
    | .gmul a b => some (.gmul (BitVec.ofNat 8 a) (BitVec.ofNat 8 b))
    | .gdiv a b => some (.gdiv (BitVec.ofNat 8 a) (BitVec.ofNat 8 b))
    | .gpow a n => some (.gpow (BitVec.ofNat 8 a) (BitVec.ofNat 16 n))
    | .clrs => some .clrs
    | .cfge k p => some (.cfge (BitVec.ofNat 8 k) (BitVec.ofNat 8 p))
    | .cfgd k n => some (.cfgd (BitVec.ofNat 8 k) (BitVec.ofNat 8 n))
    | .evpt i => some (.evpt (BitVec.ofNat 8 i))
    | .encv => some .encv
    | .encc => some .encc
    | .dec => some .dec
    | .decl => some .decl
    | .ginv b => some (.gdiv 0x01 (BitVec.ofNat 8 b))
    | .gsqr a => some (.gpow (BitVec.ofNat 8 a) 2)
    | .enc => some .encv
  else none

/-- OFF: a literal, a register's name, or a buffer entry (R92). -/
inductive OffsetName where
  | literal (off : Nat)
  | reg (r : Reg)
  | entry (b : Buf) (i : Nat)
  deriving DecidableEq, Repr

/-- A line of a host program (R89, R92). -/
inductive Line where
  | command (c : AsmCommand)
  | wr32 (off : OffsetName) (v : Nat)
  | rd32 (off : OffsetName)
  | wr8 (off : OffsetName) (v : Nat)
  | rd8 (off : OffsetName)
  deriving DecidableEq, Repr

/-- The offset a name stands for; none if it names no place in the window (R52, R92). -/
def OffsetName.value : OffsetName → Option Offset
  | .literal off => if off < Config.windowSize then some (BitVec.ofNat 12 off) else none
  | .reg r => some r.offset
  | .entry b i => if i < Config.capacity then some (b.offset i) else none

/-- The host event a line stands for; none is an assembly error. A command line stands for
`wr32 CMD, <word>` (R89). -/
def Line.event : Line → Option HostEvent
  | .command c => (assemble c).map fun i => commandEvent (encode i)
  | .wr32 off v =>
    if v < 2 ^ 32 then off.value.map fun o => .write (.window o) 4 (BitVec.ofNat 32 v) else none
  | .rd32 off => off.value.map fun o => .read (.window o) 4
  | .wr8 off v =>
    if v < 2 ^ 8 then off.value.map fun o => .write (.window o) 1 (BitVec.ofNat 32 v) else none
  | .rd8 off => off.value.map fun o => .read (.window o) 1

/-- The events of a program, line by line; none if a line is an assembly error (R183). -/
def programEvents (lines : List Line) : Option (List HostEvent) := allSome (lines.map Line.event)

end Sys2Proof.Machine
end

