-- ==== Sys2Proof/Safety.lean ====
section
/-! DEFINITION. What counts as a safe run: the fault record beside the state and the good end of a run (R183, R215), the invariant of every reachable state (R33, R200), and the words frames are said in. -/

namespace Sys2Proof

open Sys2Proof.Machine

/-- The end of a run: the last state and the fault record, which stands beside the state (R183, R215).
`refused` says that the run left this model. -/
structure RunEnd where
  state : State
  faults : List Fault
  refused : Option Refusal
  deriving DecidableEq, Repr

/-- Run the host's events, at most `n` of them. A fault is recorded, at the state in which it was met, and
ends the run (R183, R215, log entry 4). -/
def runEnd : Nat → State → RunEnd
  | 0, s => ⟨s, [], none⟩
  | n + 1, s =>
    match s.pending with
    | [] => ⟨s, [], none⟩
    | _ :: _ =>
      match step s with
      | .next t => runEnd n t
      | .fault f => ⟨s, [f], none⟩
      | .refused r => ⟨s, [], some r⟩

/-- A good end: every event performed, no fault, nothing refused (R183). -/
abbrev RunEnd.good (e : RunEnd) : Prop := e.state.pending = [] ∧ e.faults = [] ∧ e.refused = none

/-- The configuration invariant (R33). -/
abbrev ConfigInv (s : State) : Prop :=
  (s.configValid = false ∧ s.configK = 0 ∧ s.configN = 0) ∨
    (s.configValid = true ∧ 1 ≤ s.configK.toNat ∧ s.configK.toNat ≤ s.configN.toNat)

/-- The status invariant: CODE is one of 0 to 7 (R200, U8), and an error code stands only beside STICKY = 1
(R14, R30). -/
abbrev StatusInv (s : State) : Prop :=
  s.statusCode.toNat ≤ 7 ∧ (s.statusCode ≠ 0 → s.statusSticky = true)

/-- Every buffer is in canonical form and holds no entry it does not have (R25). -/
abbrev BuffersInv (s : State) : Prop := s.msg.wf ∧ s.cw.wf ∧ s.shIdx.wf ∧ s.shVal.wf

/-- The invariant of the machine. -/
abbrev Inv (s : State) : Prop := ConfigInv s ∧ StatusInv s ∧ BuffersInv s

/-- `t` has the STATUS of `s`. -/
abbrev SameStatus (s t : State) : Prop :=
  t.statusCode = s.statusCode ∧ t.statusSticky = s.statusSticky

/-- `t` has the CONFIG of `s`. -/
abbrev SameConfig (s t : State) : Prop :=
  t.configK = s.configK ∧ t.configN = s.configN ∧ t.configValid = s.configValid

/-- `t` has the length registers of `s`. -/
abbrev SameLengths (s t : State) : Prop :=
  t.msgLen = s.msgLen ∧ t.cwLen = s.cwLen ∧ t.shCnt = s.shCnt

/-- Every entry of buffer `b` reads in `t` as in `s`. -/
abbrev SameBuffer (b : Buf) (s t : State) : Prop := ∀ i, t.readEntry b i = s.readEntry b i

/-- Every entry of every buffer reads in `t` as in `s`. -/
abbrev SameBuffers (s t : State) : Prop := ∀ b, SameBuffer b s t

/-- `t` has the host's side of `s`: the events to come and the values read. -/
abbrev SameHost (s t : State) : Prop := t.pending = s.pending ∧ t.reads = s.reads

/-- The values `vs` stand in the entries `is` of buffer `b`, in order. -/
abbrev Holds (s : State) (b : Buf) (is : List Nat) (vs : List Byte) : Prop :=
  is.map (s.readEntry b) = vs.map some

/-- `sel` is DEC's selection of `k` list entries, given the shard indices `idx` of the whole list: the `k`
entries with the smallest indices, in ascending index order (R162). -/
abbrev IsSelection (k : Nat) (idx sel : List Nat) : Prop :=
  sel.length = k ∧ (∀ e ∈ sel, e < idx.length) ∧
    (sel.map fun e => idx.getD e 0).Pairwise (· < ·) ∧
    ∀ e < idx.length, e ∉ sel → ∀ e' ∈ sel, idx.getD e' 0 < idx.getD e 0

/-- The codes a command can end with (R201). -/
def codesOf : Mnemonic → List Byte
  | .nop | .clrs | .gadd | .gsub | .gmul | .gpow => [0]
  | .gdiv => [0, 4]
  | .cfge | .cfgd => [0, 5]
  | .evpt => [0, 6, 3]
  | .encv | .encc | .decl => [0, 6, 1]
  | .dec => [0, 6, 2, 3]

/-- An offset and width at which the host may read: a register but CMD, or a buffer entry (R52, R53, R56). -/
abbrev readAdmitted (off : Offset) (n : Nat) : Prop :=
  (n = 4 ∧ off.toNat ∈ [0x004, 0x008, 0x00C, 0x010, 0x014, 0x018]) ∨
    (n = 1 ∧ 0x100 ≤ off.toNat ∧ off.toNat < 0x500 ∧ off.toNat % 0x100 ≠ 0xFF)

/-- An offset and width at which the host may write: CMD, a length register, or a buffer entry
(R52, R53, R56). -/
abbrev writeAdmitted (off : Offset) (n : Nat) : Prop :=
  (n = 4 ∧ off.toNat ∈ [0x000, 0x010, 0x014, 0x018]) ∨
    (n = 1 ∧ 0x100 ≤ off.toNat ∧ off.toNat < 0x500 ∧ off.toNat % 0x100 ≠ 0xFF)

end Sys2Proof
end

