-- ==== Sys2Proof/Certificates/Slice0/Obligations.lean ====
section
/-! DEFINITION. The statements about the unit, rule by rule of spec/. -/

open Sys2Proof Sys2Proof.Machine

/-! ### Encoding -/

/-- The layouts of R82 drop no bit and add none: decoding the word of any command gives that command, operands
and all, and a legal word is the word of the command it decodes to (R86, R87). -/
def Obligations.DecodeAndEncodeAreInverse : Prop :=
  (∀ i : Instr, decode (encode i) = .ok i) ∧
  ∀ (w : Word) (i : Instr), decode w = .ok i → encode i = w

/-- R87: the decode function, opcode by opcode: w[7:0] picks the command, w[15:8], w[23:16] and w[31:16] are
its operands, and a nonzero reserved field or an unassigned opcode makes the word illegal. -/
def Obligations.DecodeFollowsTheDecodeFunction : Prop :=
  ∀ w : Word,
    (w.setWidth 8 = (0x00 : Byte) →
      decode w = if w >>> 8 = 0 then .ok .nop else .error .reservedBits) ∧
    (w.setWidth 8 = (0x01 : Byte) → decode w =
      if w >>> 24 = 0 then .ok (.gadd (w.extractLsb' 8 8) (w.extractLsb' 16 8))
      else .error .reservedBits) ∧
    (w.setWidth 8 = (0x02 : Byte) → decode w =
      if w >>> 24 = 0 then .ok (.gsub (w.extractLsb' 8 8) (w.extractLsb' 16 8))
      else .error .reservedBits) ∧
    (w.setWidth 8 = (0x03 : Byte) → decode w =
      if w >>> 24 = 0 then .ok (.gmul (w.extractLsb' 8 8) (w.extractLsb' 16 8))
      else .error .reservedBits) ∧
    (w.setWidth 8 = (0x04 : Byte) → decode w =
      if w >>> 24 = 0 then .ok (.gdiv (w.extractLsb' 8 8) (w.extractLsb' 16 8))
      else .error .reservedBits) ∧
    (w.setWidth 8 = (0x05 : Byte) →
      decode w = .ok (.gpow (w.extractLsb' 8 8) (w.extractLsb' 16 16))) ∧
    (w.setWidth 8 = (0x0F : Byte) →
      decode w = if w >>> 8 = 0 then .ok .clrs else .error .reservedBits) ∧
    (w.setWidth 8 = (0x10 : Byte) → decode w =
      if w >>> 24 = 0 then .ok (.cfge (w.extractLsb' 8 8) (w.extractLsb' 16 8))
      else .error .reservedBits) ∧
    (w.setWidth 8 = (0x11 : Byte) → decode w =
      if w >>> 24 = 0 then .ok (.cfgd (w.extractLsb' 8 8) (w.extractLsb' 16 8))
      else .error .reservedBits) ∧
    (w.setWidth 8 = (0x12 : Byte) → decode w =
      if w >>> 16 = 0 then .ok (.evpt (w.extractLsb' 8 8)) else .error .reservedBits) ∧
    (w.setWidth 8 = (0x20 : Byte) →
      decode w = if w >>> 8 = 0 then .ok .encv else .error .reservedBits) ∧
    (w.setWidth 8 = (0x21 : Byte) →
      decode w = if w >>> 8 = 0 then .ok .encc else .error .reservedBits) ∧
    (w.setWidth 8 = (0x30 : Byte) →
      decode w = if w >>> 8 = 0 then .ok .dec else .error .reservedBits) ∧
    (w.setWidth 8 = (0x31 : Byte) →
      decode w = if w >>> 8 = 0 then .ok .decl else .error .reservedBits) ∧
    (w.setWidth 8 ∉ ([0x00, 0x01, 0x02, 0x03, 0x04, 0x05, 0x0F, 0x10, 0x11, 0x12, 0x20, 0x21, 0x30,
      0x31] : List Byte) → decode w = .error .unassignedOpcode)

/-- R86: a word is illegal iff its OP is unassigned or it sets a reserved bit of its format; an illegal word
written to CMD is `fail IllegalCommand` and nothing else; no word is legal for two mnemonics. -/
def Obligations.IllegalWordFailsWithCodeSeven : Prop :=
  (∀ w : Word, (∀ x : Mnemonic, ¬ x.legal w) ↔
    (∀ x : Mnemonic, x.opcode ≠ w.setWidth 8) ∨
      ∃ x : Mnemonic, x.opcode = w.setWidth 8 ∧ w &&& x.format.mask &&& 0xFFFFFF00 ≠ 0) ∧
  (∀ (w : Word) (s : State), (∀ x : Mnemonic, ¬ x.legal w) →
    execWord w s = .next { s with statusCode := 7, statusSticky := true }) ∧
  ∀ (w : Word) (x y : Mnemonic), x.legal w → y.legal w → x = y

/-- Words written out from the spec's encodings, one for each command, and words the spec calls illegal. -/
def Obligations.SpecWordsDecode : Prop :=
  decode 0x00000000 = .ok .nop ∧
  decode 0x00CA5301 = .ok (.gadd 0x53 0xCA) ∧
  decode 0x00CA9902 = .ok (.gsub 0x99 0xCA) ∧
  decode 0x00081003 = .ok (.gmul 0x10 0x08) ∧
  decode 0x000F5504 = .ok (.gdiv 0x55 0x0F) ∧
  decode 0x01000205 = .ok (.gpow 0x02 256) ∧
  decode 0x0000000F = .ok .clrs ∧
  decode 0x000C0610 = .ok (.cfge 6 12) ∧
  decode 0x00040211 = .ok (.cfgd 2 4) ∧
  decode 0x00001112 = .ok (.evpt 17) ∧
  decode 0x00000020 = .ok .encv ∧
  decode 0x00000021 = .ok .encc ∧
  decode 0x00000030 = .ok .dec ∧
  decode 0x00000031 = .ok .decl ∧
  decode 0x01CA5301 = .error .reservedBits ∧
  decode 0x00011112 = .error .reservedBits ∧
  decode 0x00000006 = .error .unassignedOpcode

/-- R58: byte lane j of a word carries its bits [8j+7:8j], and the four lanes make up the word. -/
def Obligations.WordLanesAreLittleEndian : Prop :=
  (∀ (w : Word) (j i : Nat), j < 4 → i < 8 → (laneByte w j).getLsbD i = w.getLsbD (8 * j + i)) ∧
  ∀ w : Word, wordOfLanes (laneByte w 0) (laneByte w 1) (laneByte w 2) (laneByte w 3) = w

/-- R89, R91: a command line whose operands lie in their ranges (0..255, the exponent 0..65535) stands for the
4-byte write to CMD of the word of R82, A = a, B = b, E = n, K = k, M = p or n, IDX = i; with an operand outside its
range it stands for nothing. A pseudo-instruction stands for what its expansion stands for, and a command's own
spelling assembles to it. Lines are modelled from their parsed form on (log entry 15). -/
def Obligations.AssemblerAcceptsOperandsInRange : Prop :=
  (∀ x ∈ ([(.nop, 0x00), (.clrs, 0x0F), (.encv, 0x20), (.encc, 0x21), (.dec, 0x30), (.decl, 0x31),
      (.enc, 0x20)] : List (AsmCommand × Nat)),
    (Line.command x.1).event = some (.write (.window 0x000) 4 (BitVec.ofNat 32 x.2))) ∧
  (∀ a b : Nat, ∀ x ∈ ([(.gadd a b, 0x01), (.gsub a b, 0x02), (.gmul a b, 0x03), (.gdiv a b, 0x04),
      (.cfge a b, 0x10), (.cfgd a b, 0x11)] : List (AsmCommand × Nat)),
    (Line.command x.1).event =
      if a < 256 ∧ b < 256 then
        some (.write (.window 0x000) 4 (BitVec.ofNat 32 (x.2 + 2 ^ 8 * a + 2 ^ 16 * b)))
      else none) ∧
  (∀ a n : Nat, (Line.command (.gpow a n)).event =
    if a < 256 ∧ n < 65536 then
      some (.write (.window 0x000) 4 (BitVec.ofNat 32 (0x05 + 2 ^ 8 * a + 2 ^ 16 * n)))
    else none) ∧
  (∀ a : Nat, ∀ x ∈ ([(.evpt a, 0x12 + 2 ^ 8 * a), (.ginv a, 0x04 + 2 ^ 8 * 1 + 2 ^ 16 * a),
      (.gsqr a, 0x05 + 2 ^ 8 * a + 2 ^ 16 * 2)] : List (AsmCommand × Nat)),
    (Line.command x.1).event =
      if a < 256 then some (.write (.window 0x000) 4 (BitVec.ofNat 32 x.2)) else none) ∧
  (∀ c : AsmCommand, (assemble c).isSome = c.wellFormed) ∧
  (∀ i : Instr, assemble i.toAsm = some i) ∧
  (∀ b, assemble (.ginv b) = assemble (.gdiv 1 b)) ∧
  (∀ a, assemble (.gsqr a) = assemble (.gpow a 2)) ∧
  assemble .enc = assemble .encv

/-! ### Steps -/

/-- When the host's next event is a 4-byte write of `w` to CMD, the step is the command `w` decodes to, on
the state with that event taken off the host's list; an illegal word is `fail IllegalCommand` (R38, R90).
`withFetchWord` places exactly such an event. That the host's events to come stand in a list of the state is
the model's choice (log entry 5). -/
def Obligations.StepRunsDecodedCommand : Prop :=
  (∀ (s : State) (w : Word) (rest : List HostEvent),
    s.pending = .write (.window 0x000) 4 w :: rest →
    (∀ i, decode w = .ok i → step s = exec i (s.setPending rest)) ∧
    (∀ e, decode w = .error e →
      step s = .next { s with pending := rest, statusCode := 7, statusSticky := true })) ∧
  ∀ (s : State) (w : Word),
    (s.withFetchWord 32 w.toNat).pending = .write (.window 0x000) 4 w :: s.pending

/-- A step takes the host's next event off the list and performs it: a read or a write, at a window offset or at
a host address in the window, by the access rules; an address outside the window is refused (log entries 2 and
12); a reset sets the state of R230 and leaves the host's side (log entry 7). With no event left the unit holds its
state (R51, R59, R64, R183, R216, R231). The list of events and the idle step are the model's choice (log entry 5). -/
def Obligations.StepPerformsNextHostEvent : Prop :=
  (∀ (s : State) (e : HostEvent) (rest : List HostEvent),
    s.pending = e :: rest → step s = performEvent e (s.setPending rest)) ∧
  (∀ (s : State) (off : Offset) (n : Nat) (rest : List HostEvent),
    s.pending = .read (.window off) n :: rest ∨
      s.pending = .read (.address (Config.unitBase + off.toNat)) n :: rest →
    step s = hostRead off n (s.setPending rest)) ∧
  (∀ (s : State) (off : Offset) (n : Nat) (v : Word) (rest : List HostEvent),
    s.pending = .write (.window off) n v :: rest ∨
      s.pending = .write (.address (Config.unitBase + off.toNat)) n v :: rest →
    step s = hostWrite off n v (s.setPending rest)) ∧
  (∀ (s : State) (a n : Nat) (v : Word) (rest : List HostEvent),
    a < Config.unitBase ∨ Config.unitBase + 0x1000 ≤ a →
    s.pending = .read (.address a) n :: rest ∨ s.pending = .write (.address a) n v :: rest →
    step s = .refused (.outsideWindow a)) ∧
  (∀ (s : State) (rest : List HostEvent), s.pending = .reset :: rest →
    step s = .next { State.reset with pending := rest, reads := s.reads }) ∧
  ∀ s : State, s.pending = [] → step s = .next s

/-- R230, R231: after reset every register is zero, CONFIG is not valid, and every buffer entry is unwritten;
the reset event gives the unit's state these values, whatever the state was, and leaves the host's remaining
events and the values read so far. That the host's side is kept is the model's reading of "Reset sets the state
of rule R230 and nothing else" (log entry 7). -/
def Obligations.ResetGivesResetState : Prop :=
  (∀ (s : State) (rest : List HostEvent), s.pending = .reset :: rest →
    step s = .next
      { statusCode := 0, statusSticky := false, result := 0, configK := 0, configN := 0,
        configValid := false, msgLen := 0, cwLen := 0, shCnt := 0, msg := [], cw := [], shIdx := [],
        shVal := [], pending := rest, reads := s.reads }) ∧
  State.reset.statusWord = 0 ∧ State.reset.result = 0 ∧ State.reset.configWord = 0 ∧
  State.reset.msgLen = 0 ∧ State.reset.cwLen = 0 ∧ State.reset.shCnt = 0 ∧
  ∀ (b : Buf) (i : Nat), State.reset.readEntry b i = none

/-- A command always completes with a status or meets an unwritten entry; it never refuses and never raises
another fault (R27, R90, R215). -/
def Obligations.CommandCompletesOrMeetsUnwrittenEntry : Prop :=
  ∀ (i : Instr) (s : State),
    (∃ t, exec i s = .next t) ∨
      ∃ (b : Buf) (j : Nat), exec i s = .fault (.unwrittenRead b j) ∧ s.readEntry b j = none ∧
        (i = .encv ∨ i = .encc ∨ i = .dec ∨ i = .decl)

/-- A run that has met a fault has ended: giving it more steps changes neither its state nor its record, and
it is no good end (R183, R215). That the run ends at its first fault is the model's reading (log entry 4). -/
def Obligations.FaultedRunKeepsItsFault : Prop :=
  ∀ (n m : Nat) (s : State), (runEnd n s).faults ≠ [] →
    runEnd (n + m) s = runEnd n s ∧ ¬ (runEnd (n + m) s).good

/-! ### Control and field commands -/

/-- R180, R181: NOP, word 0x00000000, sets STATUS.CODE to 0 and changes nothing else; CLRS, word 0x0000000F,
clears CODE and STICKY and changes nothing else, so that STATUS then reads 0. -/
def Obligations.NopAndClrsWriteStatusOnly : Prop :=
  encode .nop = 0x00000000 ∧ encode .clrs = 0x0000000F ∧
  ∀ s : State,
    exec .nop s = .next { s with statusCode := 0 } ∧
    exec .clrs s = .next { s with statusCode := 0, statusSticky := false } ∧
    ({ s with statusCode := 0, statusSticky := false } : State).statusWord = 0

/-- R110, R111: GADD, word 0x00BBAA01, and GSUB, word 0x00BBAA02, write the exclusive-or of their operands, in
either order, to RESULT and end with CODE 0; with the rules' corner cases and examples. -/
def Obligations.GaddAndGsubWriteXor : Prop :=
  (∀ (a b : Byte) (s : State),
    encode (.gadd a b) = 0x00000001 ||| a.setWidth 32 <<< 8 ||| b.setWidth 32 <<< 16 ∧
    encode (.gsub a b) = 0x00000002 ||| a.setWidth 32 <<< 8 ||| b.setWidth 32 <<< 16 ∧
    exec (.gadd a b) s = .next { s with result := a ^^^ b, statusCode := 0 } ∧
    exec (.gsub a b) s = exec (.gadd a b) s ∧ exec (.gsub a b) s = exec (.gadd b a) s) ∧
  (∀ (a : Byte) (s : State),
    exec (.gadd a a) s = .next { s with result := 0, statusCode := 0 } ∧
    exec (.gadd a 0) s = .next { s with result := a, statusCode := 0 } ∧
    exec (.gsub a a) s = .next { s with result := 0, statusCode := 0 }) ∧
  ∀ s : State,
    exec (.gadd 0x53 0xCA) s = .next { s with result := 0x99, statusCode := 0 } ∧
    exec (.gsub 0x99 0xCA) s = .next { s with result := 0x53, statusCode := 0 }

/-- R112: GMUL, word 0x00BBAA03, writes the product and ends with CODE 0; with the rule's corner cases. The
examples that depend on the polynomial name theirs. -/
def Obligations.GmulWritesProduct : Prop :=
  (∀ (a b : Byte) (s : State),
    encode (.gmul a b) = 0x00000003 ||| a.setWidth 32 <<< 8 ||| b.setWidth 32 <<< 16 ∧
    exec (.gmul a b) s =
      .next { s with result := gfReduce Config.gfPoly (clmul a b), statusCode := 0 } ∧
    exec (.gmul a b) s = exec (.gmul b a) s ∧
    (clmul a b < 0x100 →
      exec (.gmul a b) s = .next { s with result := (clmul a b).setWidth 8, statusCode := 0 })) ∧
  (∀ (a : Byte) (s : State),
    exec (.gmul a 0) s = .next { s with result := 0, statusCode := 0 } ∧
    exec (.gmul a 1) s = .next { s with result := a, statusCode := 0 }) ∧
  (∀ s : State,
    exec (.gmul 0x0F 0x0F) s = .next { s with result := 0x55, statusCode := 0 } ∧
    exec (.gmul 0x10 0x08) s = .next { s with result := 0x80, statusCode := 0 } ∧
    exec (.gmul 0x80 0x02) s = .next { s with result := Config.gfPoly.setWidth 8, statusCode := 0 }) ∧
  gfMul 0x11D 0x53 0xCA = 0x8F ∧ gfMul 0x11B 0x53 0xCA = 0x01

/-- R113: GDIV, word 0x00BBAA04, fails with DivisionByZero iff B = 0, and otherwise writes the one byte
whose product with B is A; with the rule's corner cases. -/
def Obligations.GdivWritesQuotient : Prop :=
  (∀ (a b : Byte), encode (.gdiv a b) = 0x00000004 ||| a.setWidth 32 <<< 8 ||| b.setWidth 32 <<< 16) ∧
  (∀ (a : Byte) (s : State),
    exec (.gdiv a 0) s = .next { s with statusCode := 4, statusSticky := true }) ∧
  (∀ (a b : Byte) (s : State), b ≠ 0 → ∃ c : Byte,
    exec (.gdiv a b) s = .next { s with result := c, statusCode := 0 } ∧
    gfMul Config.gfPoly b c = a ∧ ∀ d, gfMul Config.gfPoly b d = a → d = c) ∧
  (∀ (b : Byte) (s : State), b ≠ 0 →
    exec (.gdiv 0 b) s = .next { s with result := 0, statusCode := 0 } ∧
    exec (.gdiv b b) s = .next { s with result := 1, statusCode := 0 } ∧
    exec (.gdiv 1 b) s = .next { s with result := gfInv Config.gfPoly b, statusCode := 0 }) ∧
  (∀ (a : Byte) (s : State), exec (.gdiv a 1) s = .next { s with result := a, statusCode := 0 }) ∧
  (∀ (a b c : Byte) (s : State), b ≠ 0 → clmul b c = a.setWidth 15 →
    exec (.gdiv a b) s = .next { s with result := c, statusCode := 0 }) ∧
  gfDiv 0x11D 0x01 0x02 = some 0x8E ∧ gfDiv 0x11B 0x01 0x02 = some 0x8D

/-- R114: GPOW, word 0xEEEEAA05, every word of that opcode legal, writes A to the power E; with the rule's
corner cases. -/
def Obligations.GpowWritesPower : Prop :=
  (∀ (a : Byte) (e : BitVec 16) (s : State),
    encode (.gpow a e) = 0x00000005 ||| a.setWidth 32 <<< 8 ||| e.setWidth 32 <<< 16 ∧
    exec (.gpow a e) s = .next { s with result := gfPow Config.gfPoly a e.toNat, statusCode := 0 }) ∧
  (∀ w : Word, w.setWidth 8 = (0x05 : Byte) → ∃ a e, decode w = .ok (.gpow a e)) ∧
  (∀ (a : Byte) (s : State),
    exec (.gpow a 0) s = .next { s with result := 1, statusCode := 0 } ∧
    exec (.gpow a 1) s = .next { s with result := a, statusCode := 0 }) ∧
  (∀ (e : BitVec 16) (s : State), e ≠ 0 →
    exec (.gpow 0 e) s = .next { s with result := 0, statusCode := 0 }) ∧
  (∀ (a : Byte) (s : State), a ≠ 0 →
    exec (.gpow a 255) s = .next { s with result := 1, statusCode := 0 } ∧
    exec (.gpow a 254) s = .next { s with result := gfInv Config.gfPoly a, statusCode := 0 } ∧
    exec (.gpow a 256) s = .next { s with result := a, statusCode := 0 } ∧
    exec (.gpow a 65535) s = .next { s with result := 1, statusCode := 0 }) ∧
  ∀ s : State,
    exec (.gpow 0x03 2) s = .next { s with result := 0x05, statusCode := 0 } ∧
    exec (.gpow 0x02 8) s = .next { s with result := Config.gfPoly.setWidth 8, statusCode := 0 }

/-! ### The field -/

/-- R5: the legal values of GF_POLY are exactly the irreducible polynomials of degree 8: those with bit 8 set
that no two bytes multiply to. -/
def Obligations.LegalPolynomialsAreTheIrreducibleOnes : Prop :=
  ∀ p : BitVec 9, p ∈ Config.legalPolys ↔
    p.getLsbD 8 = true ∧ ∀ a b : Byte, clmul a b ≠ p.setWidth 15

/-- R103: the reduction of c is its remainder modulo the polynomial: c and the result differ by a multiple. -/
def Obligations.ReductionIsRemainder : Prop :=
  ∀ (p : BitVec 9) (c : BitVec 15), p.getLsbD 8 = true → ∃ q : BitVec 7,
    (gfReduce p c).setWidth 15 =
      c ^^^ (List.range 7).foldl
        (fun r i => if q.getLsbD i then r ^^^ (p.setWidth 15 <<< i) else r) 0

/-- R104: multiplication is the reduced carry-less product, equals the shift-and-add form, has annihilator 0
and identity 1. -/
def Obligations.GfMulIsShiftAndAdd : Prop :=
  ∀ p ∈ Config.legalPolys, ∀ a b : Byte,
    gfMul p a b = gfReduce p (clmul a b) ∧
    gfMul p a b =
      ((List.range 8).foldl (fun (rx : Byte × Byte) i =>
        (if b.getLsbD i then rx.1 ^^^ rx.2 else rx.1,
          if rx.2.getLsbD 7 then (rx.2 <<< 1) ^^^ p.setWidth 8 else rx.2 <<< 1)) (0, a)).1 ∧
    gfMul p a 0 = 0 ∧ gfMul p a 1 = a

/-- R109: the field laws, for every legal polynomial. -/
def Obligations.FieldLaws : Prop :=
  ∀ p ∈ Config.legalPolys, ∀ a b c : Byte,
    (gfAdd a b = gfAdd b a ∧ gfAdd (gfAdd a b) c = gfAdd a (gfAdd b c) ∧ gfAdd a 0 = a ∧
      gfAdd a a = 0) ∧
    (gfMul p a b = gfMul p b a ∧ gfMul p (gfMul p a b) c = gfMul p a (gfMul p b c) ∧
      gfMul p a 1 = a ∧ gfMul p a 0 = 0 ∧
      gfMul p a (gfAdd b c) = gfAdd (gfMul p a b) (gfMul p a c)) ∧
    (gfMul p a b = 0 ↔ a = 0 ∨ b = 0) ∧
    (b ≠ 0 → gfDiv p (gfMul p a b) b = some a) ∧ gfDiv p a 0 = none ∧
    ∀ m n : Nat, gfPow p a (m + n) = gfMul p (gfPow p a m) (gfPow p a n)

/-- R105, R106: the inverse of b ≠ 0 is the one byte whose product with b is 1, and is b to the power 254;
division by zero is an error, and otherwise the quotient of a by b is a times the inverse of b, the one c with
b·c = a. -/
def Obligations.InverseAndQuotientAreUnique : Prop :=
  ∀ p ∈ Config.legalPolys, ∀ a b : Byte,
    (b = 0 → gfDiv p a b = none) ∧
    (b ≠ 0 →
      gfMul p b (gfInv p b) = 1 ∧ (∀ c, gfMul p b c = 1 → c = gfInv p b) ∧
      gfInv p b = gfPow p b 254 ∧
      gfDiv p a b = some (gfMul p a (gfInv p b)) ∧ gfMul p b (gfMul p a (gfInv p b)) = a ∧
      ∀ c, gfMul p b c = a → gfDiv p a b = some c)

/-- R107: power by repeated multiplication, its value at exponent 0, and the closed form. -/
def Obligations.PowerHasClosedForm : Prop :=
  ∀ p ∈ Config.legalPolys, ∀ (a : Byte) (n : Nat),
    gfPow p a n = (gfMul p · a)^[n] 1 ∧
    gfPow p a n = if n = 0 then 1 else if a = 0 then 0 else gfPow p a (n % 255)

/-- R141: interpolation through k distinct points is evaluation of the one polynomial of at most k
coefficients that takes the given values there. -/
def Obligations.InterpolationEvaluatesUniquePolynomial : Prop :=
  ∀ p ∈ Config.legalPolys, ∀ xs ys : List Byte, xs ≠ [] → xs.Nodup → ys.length = xs.length →
    ∃ q : List Byte, q.length = xs.length ∧ xs.map (horner p q) = ys ∧
      (∀ q' : List Byte, q'.length = xs.length → xs.map (horner p q') = ys → q' = q) ∧
      (∀ x : Byte, interp p xs ys x = some (horner p q x)) ∧
      ∀ t < xs.length, interp p xs ys (xs.getD t 0) = some (ys.getD t 0)

/-- The Horner rule of R144 gives the value of the polynomial whose coefficients are the message: the sum of
m_j · x^j. -/
def Obligations.HornerIsPolynomialValue : Prop :=
  ∀ p ∈ Config.legalPolys, ∀ (m : List Byte) (x : Byte),
    horner p m x =
      (List.range m.length).foldl (fun r j => gfAdd r (gfMul p (m.getD j 0) (gfPow p x j))) 0

/-! ### Configuration and points -/

/-- R122: CFGE, word 0x00MMKK10, fails with ConfigurationError iff K = 0 or K + M > 255, and otherwise sets
CONFIG to (K, K + M, VALID). -/
def Obligations.CfgeSetsConfiguration : Prop :=
  ∀ (k m : Byte) (s : State),
    encode (.cfge k m) = 0x00000010 ||| k.setWidth 32 <<< 8 ||| m.setWidth 32 <<< 16 ∧
    ((k = 0 ∨ 255 < k.toNat + m.toNat) →
      exec (.cfge k m) s = .next { s with statusCode := 5, statusSticky := true }) ∧
    (¬ (k = 0 ∨ 255 < k.toNat + m.toNat) →
      exec (.cfge k m) s =
        .next { s with configK := k, configN := k + m, configValid := true, statusCode := 0 } ∧
      (k + m).toNat = k.toNat + m.toNat)

/-- R123: CFGD, word 0x00MMKK11, fails with ConfigurationError iff K = 0 or M < K, and otherwise sets CONFIG
to (K, M, VALID); it then leaves the CONFIG that CFGE leaves for the same shard counts. -/
def Obligations.CfgdSetsConfiguration : Prop :=
  (∀ (k m : Byte) (s : State),
    encode (.cfgd k m) = 0x00000011 ||| k.setWidth 32 <<< 8 ||| m.setWidth 32 <<< 16 ∧
    ((k = 0 ∨ m.toNat < k.toNat) →
      exec (.cfgd k m) s = .next { s with statusCode := 5, statusSticky := true }) ∧
    (¬ (k = 0 ∨ m.toNat < k.toNat) →
      exec (.cfgd k m) s =
        .next { s with configK := k, configN := m, configValid := true, statusCode := 0 })) ∧
  ∀ (k p : Byte) (s : State), k ≠ 0 → k.toNat + p.toNat ≤ 255 →
    exec (.cfgd k (k + p)) s = exec (.cfge k p) s

/-- R120, R124: EVPT, word 0x0000II12, fails with NotConfigured if VALID = 0, else with
DuplicateOrInvalidIndex if IDX ≥ N, else writes the nonzero point IDX + 1 to RESULT. -/
def Obligations.EvptWritesPoint : Prop :=
  ∀ (idx : Byte) (s : State),
    encode (.evpt idx) = 0x00000012 ||| idx.setWidth 32 <<< 8 ∧
    (s.configValid = false →
      exec (.evpt idx) s = .next { s with statusCode := 6, statusSticky := true }) ∧
    (s.configValid = true → s.configN.toNat ≤ idx.toNat →
      exec (.evpt idx) s = .next { s with statusCode := 3, statusSticky := true }) ∧
    (s.configValid = true → idx.toNat < s.configN.toNat →
      exec (.evpt idx) s = .next { s with result := idx + 1, statusCode := 0 } ∧
      (idx + 1).toNat = idx.toNat + 1)

/-- R125: CONFIG changes only at reset and at a CFGE or CFGD that ends with CODE 0: whatever other event a step
performs, CONFIG stays. -/
def Obligations.ConfigChangesOnlyByConfigure : Prop :=
  ∀ (s t : State) (e : HostEvent) (rest : List HostEvent), s.pending = e :: rest →
    step s = .next t →
    SameConfig s t ∨ e = .reset ∨
      ∃ (tgt : Target) (w : Word) (k m : Byte), e = .write tgt 4 w ∧ tgt.resolve = .ok 0x000 ∧
        (decode w = .ok (.cfge k m) ∨ decode w = .ok (.cfgd k m)) ∧ t.statusCode = 0 ∧
        t.configValid = true

/-! ### The encoders -/

/-- R142: the encoders' checks, in order, before any entry is read; then the first unwritten message entry is
the fault (that it is the first one is the model's choice, log entry 3). -/
def Obligations.EncodersCheckInOrder : Prop :=
  ∀ (i : Instr) (s : State), i = .encv ∨ i = .encc →
    (s.configValid = false →
      exec i s = .next { s with statusCode := 6, statusSticky := true }) ∧
    (s.configValid = true → s.msgLen ≠ s.configK →
      exec i s = .next { s with statusCode := 1, statusSticky := true }) ∧
    (s.configValid = true → s.msgLen = s.configK → ∀ j < s.configK.toNat,
      (∀ l < j, s.readEntry .msg l ≠ none) → s.readEntry .msg j = none →
      exec i s = .fault (.unwrittenRead .msg j))

/-- R143: ENCV, word 0x00000020, with VALID = 1, MSG_LEN = K and the message written, completes: CW[i] is the
message symbol for i < K and the interpolation through the message for K ≤ i < N, CW_LEN is N, CODE is 0, and
nothing else changes. -/
def Obligations.EncvCompletes : Prop :=
  encode .encv = 0x00000020 ∧
  ∀ (s : State) (m : List Byte), s.configValid = true → s.msgLen = s.configK →
    m.length = s.configK.toNat → Holds s .msg (List.range s.configK.toNat) m →
    ∃ (c : List Byte) (t : State), c.length = s.configN.toNat ∧
      (∀ i < s.configN.toNat, some (c.getD i 0) =
        if i < s.configK.toNat then some (m.getD i 0)
        else interp Config.gfPoly ((List.range s.configK.toNat).map point) m (point i)) ∧
      exec .encv s = .next t ∧ Holds t .cw (List.range s.configN.toNat) c ∧
      (∀ i, s.configN.toNat ≤ i → t.readEntry .cw i = s.readEntry .cw i) ∧
      t = { s with cw := t.cw, cwLen := s.configN, statusCode := 0 }

/-- R144: ENCC, word 0x00000021, under the same conditions completes: CW[i] is the message symbol for i < K
and the Horner value at point(i) for K ≤ i < N, CW_LEN is N, CODE is 0, and nothing else changes. -/
def Obligations.EnccCompletes : Prop :=
  encode .encc = 0x00000021 ∧
  ∀ (s : State) (m : List Byte), s.configValid = true → s.msgLen = s.configK →
    m.length = s.configK.toNat → Holds s .msg (List.range s.configK.toNat) m →
    ∃ (c : List Byte) (t : State), c.length = s.configN.toNat ∧
      (∀ i < s.configN.toNat, c.getD i 0 =
        if i < s.configK.toNat then m.getD i 0 else horner Config.gfPoly m (point i)) ∧
      exec .encc s = .next t ∧ Holds t .cw (List.range s.configN.toNat) c ∧
      (∀ i, s.configN.toNat ≤ i → t.readEntry .cw i = s.readEntry .cw i) ∧
      t = { s with cw := t.cw, cwLen := s.configN, statusCode := 0 }

/-- R146: after a successful ENCV or ENCC, CW[i] = MSG[i] for i = 0..K-1. -/
def Obligations.CodewordBeginsWithMessage : Prop :=
  ∀ (i : Instr) (s t : State), i = .encv ∨ i = .encc → ConfigInv s → exec i s = .next t →
    t.statusCode = 0 → ∀ j < t.configK.toNat, t.readEntry .cw j = t.readEntry .msg j

/-- R147: with K = 1 every codeword symbol is the single message symbol; with N = K the codeword is the
message and the entries from K up stay. Both for ENCV and for ENCC. -/
def Obligations.EncoderBoundaryCases : Prop :=
  ∀ (i : Instr) (s t : State), i = .encv ∨ i = .encc → ConfigInv s → exec i s = .next t →
    t.statusCode = 0 →
    (s.configK = 1 → ∀ j < s.configN.toNat, t.readEntry .cw j = s.readEntry .msg 0) ∧
    (s.configN = s.configK →
      (∀ j < s.configK.toNat, t.readEntry .cw j = s.readEntry .msg j) ∧
      ∀ j, s.configK.toNat ≤ j → t.readEntry .cw j = s.readEntry .cw j)

/-- R148: a value-form codeword holds the values, at its points, of the polynomial of at most K coefficients
that the message determines, and any K distinct positions of it determine that polynomial. -/
def Obligations.ValueFormCodewordIsMds : Prop :=
  ∀ s t : State, ConfigInv s → exec .encv s = .next t → t.statusCode = 0 →
    ∃ q : List Byte, q.length = s.configK.toNat ∧
      (∀ j < s.configK.toNat, s.readEntry .msg j = some (horner Config.gfPoly q (point j))) ∧
      (∀ i < s.configN.toNat, t.readEntry .cw i = some (horner Config.gfPoly q (point i))) ∧
      ∀ (is : List Nat) (q' : List Byte), is.Nodup → is.length = s.configK.toNat →
        (∀ i ∈ is, i < s.configN.toNat ∧
          t.readEntry .cw i = some (horner Config.gfPoly q' (point i))) →
        q'.length = s.configK.toNat → q' = q

/-- R149's counterexample and R164's example, under every legal polynomial: with K = 4 and N = 12 the
coefficient-form codewords of two different messages are both 0 at positions 1, 4, 5 and 9; and decoding the last
two positions of the coefficient-form codeword 10 20 70 90 of 10 20 gives 30 50, not the message. -/
def Obligations.CoefficientFormIsNotDecodable : Prop :=
  ∀ p ∈ Config.legalPolys,
    (∀ i ∈ [1, 4, 5, 9],
      (coeffCodeword p 4 12 [0xCC, 0x00, 0x09, 0x01])[i]? = some 0 ∧
        (coeffCodeword p 4 12 [0x00, 0x00, 0x00, 0x00])[i]? = some 0) ∧
    coeffCodeword p 2 4 [0x10, 0x20] = [0x10, 0x20, 0x70, 0x90] ∧
    decodedMessage p 2 (points (lastPositions 2 4)) [0x70, 0x90] = some [0x30, 0x50]

/-- R151: an encoder's outcome depends on VALID, K, N, MSG_LEN and MSG[0..K-1] alone. -/
def Obligations.EncoderDependsOnMessageOnly : Prop :=
  ∀ (i : Instr) (s u : State), i = .encv ∨ i = .encc → SameConfig s u → u.msgLen = s.msgLen →
    (∀ j < s.configK.toNat, u.readEntry .msg j = s.readEntry .msg j) →
    match exec i s, exec i u with
    | .next t, .next v => v.statusCode = t.statusCode ∧
        (t.statusCode = 0 → v.cwLen = t.cwLen ∧
          ∀ j < s.configN.toNat, v.readEntry .cw j = t.readEntry .cw j)
    | .fault f, .fault g => g = f
    | _, _ => False

/-! ### The decoders -/

/-- R160: DEC's checks, in order: NotConfigured, InsufficientShards, an unwritten index entry,
DuplicateOrInvalidIndex over every supplied index, an unwritten value of a selected entry. Which of several
unwritten entries is reported, the first, is the model's choice (log entry 3). -/
def Obligations.DecChecksInOrder : Prop :=
  ∀ s : State,
    (s.configValid = false →
      exec .dec s = .next { s with statusCode := 6, statusSticky := true }) ∧
    (s.configValid = true → s.shCnt.toNat < s.configK.toNat →
      exec .dec s = .next { s with statusCode := 2, statusSticky := true }) ∧
    (s.configValid = true → s.configK.toNat ≤ s.shCnt.toNat → ∀ e < s.shCnt.toNat,
      (∀ l < e, s.readEntry .shIdx l ≠ none) → s.readEntry .shIdx e = none →
      exec .dec s = .fault (.unwrittenRead .shIdx e)) ∧
    ∀ raw : List Byte, s.configValid = true → s.configK.toNat ≤ s.shCnt.toNat →
      Holds s .shIdx (List.range s.shCnt.toNat) raw →
      ((∃ x ∈ raw, s.configN.toNat ≤ x.toNat) ∨ ¬ raw.Nodup →
        exec .dec s = .next { s with statusCode := 3, statusSticky := true }) ∧
      (∀ sel l r : List Nat, ∀ e, (∀ x ∈ raw, x.toNat < s.configN.toNat) → raw.Nodup →
        IsSelection s.configK.toNat (raw.map BitVec.toNat) sel → sel = l ++ e :: r →
        (∀ d ∈ l, s.readEntry .shVal d ≠ none) → s.readEntry .shVal e = none →
        exec .dec s = .fault (.unwrittenRead .shVal e))

/-- R160: DEC, word 0x00000030, with VALID = 1, at least K list entries, all indices written, distinct and
below N, and the selected values written, completes: MSG[i] for i < K is the interpolation at point(i) through
the selected entries' points and values, MSG_LEN is K, CODE is 0, and nothing else changes. -/
def Obligations.DecCompletes : Prop :=
  encode .dec = 0x00000030 ∧
  ∀ (s : State) (raw ys : List Byte) (sel : List Nat), s.configValid = true →
    s.configK.toNat ≤ s.shCnt.toNat → Holds s .shIdx (List.range s.shCnt.toNat) raw →
    (∀ x ∈ raw, x.toNat < s.configN.toNat) → raw.Nodup →
    IsSelection s.configK.toNat (raw.map BitVec.toNat) sel → Holds s .shVal sel ys →
    ∃ (r : List Byte) (t : State), r.length = s.configK.toNat ∧
      (∀ i < s.configK.toNat, some (r.getD i 0) =
        interp Config.gfPoly (sel.map fun e => point (raw.getD e 0).toNat) ys (point i)) ∧
      exec .dec s = .next t ∧ Holds t .msg (List.range s.configK.toNat) r ∧
      (∀ i, s.configK.toNat ≤ i → t.readEntry .msg i = s.readEntry .msg i) ∧
      t = { s with msg := t.msg, msgLen := s.configK, statusCode := 0 }

/-- R162: the selection exists and is unique: what DEC selects is the K entries with the smallest indices, in
ascending order, and nothing else is. -/
def Obligations.SelectionIsTheSmallestIndices : Prop :=
  ∀ (k : Nat) (idx : List Nat), idx.Nodup → k ≤ idx.length →
    IsSelection k idx (selectEntries k idx) ∧
    ∀ sel, IsSelection k idx sel → sel = selectEntries k idx

/-- R161, R167: DECL, word 0x00000031, fails with NotConfigured if VALID = 0, else with InvalidInputLength if
CW_LEN ≠ N; then the first unwritten entry of CW[N-K..N-1] is the fault (that it is the first one is the model's
choice, log entry 3). -/
def Obligations.DeclChecksInOrder : Prop :=
  encode .decl = 0x00000031 ∧
  ∀ s : State,
    (s.configValid = false →
      exec .decl s = .next { s with statusCode := 6, statusSticky := true }) ∧
    (s.configValid = true → s.cwLen ≠ s.configN →
      exec .decl s = .next { s with statusCode := 1, statusSticky := true }) ∧
    (s.configValid = true → s.cwLen = s.configN → ConfigInv s → ∀ j < s.configN.toNat,
      s.configN.toNat - s.configK.toNat ≤ j →
      (∀ l < j, s.configN.toNat - s.configK.toNat ≤ l → s.readEntry .cw l ≠ none) →
      s.readEntry .cw j = none → exec .decl s = .fault (.unwrittenRead .cw j))

/-- R161: DECL with VALID = 1, CW_LEN = N and CW[N-K..N-1] written completes: MSG[i] for i < K is the
interpolation at point(i) through the last K positions, MSG_LEN is K, CODE is 0, and nothing else changes. -/
def Obligations.DeclCompletes : Prop :=
  ∀ (s : State) (ys : List Byte), ConfigInv s → s.configValid = true → s.cwLen = s.configN →
    ys.length = s.configK.toNat →
    (∀ e < s.configK.toNat,
      s.readEntry .cw (s.configN.toNat - s.configK.toNat + e) = some (ys.getD e 0)) →
    ∃ (r : List Byte) (t : State), r.length = s.configK.toNat ∧
      (∀ i < s.configK.toNat, some (r.getD i 0) =
        interp Config.gfPoly
          ((List.range s.configK.toNat).map fun e =>
            point (s.configN.toNat - s.configK.toNat + e)) ys (point i)) ∧
      exec .decl s = .next t ∧ Holds t .msg (List.range s.configK.toNat) r ∧
      (∀ i, s.configK.toNat ≤ i → t.readEntry .msg i = s.readEntry .msg i) ∧
      t = { s with msg := t.msg, msgLen := s.configK, statusCode := 0 }

/-- R161: DECL does what DEC does with the list (N-K, CW[N-K]), …, (N-1, CW[N-1]). -/
def Obligations.DeclEqualsDecOfLastPositions : Prop :=
  ∀ s t u : State, ConfigInv s → exec .decl s = .next t → t.statusCode = 0 → SameConfig s u →
    u.shCnt = s.configK →
    (∀ e < s.configK.toNat,
      u.readEntry .shIdx e = some (BitVec.ofNat 8 (s.configN.toNat - s.configK.toNat + e)) ∧
      u.readEntry .shVal e = s.readEntry .cw (s.configN.toNat - s.configK.toNat + e)) →
    ∃ v, exec .dec u = .next v ∧ v.statusCode = 0 ∧ v.msgLen = t.msgLen ∧
      ∀ j < s.configK.toNat, v.readEntry .msg j = t.readEntry .msg j

/-- R163: DEC after ENCV under one configuration, from any list of at least K distinct valid positions that
holds the codeword's values, recovers the message. -/
def Obligations.DecRecoversEncodedMessage : Prop :=
  ∀ (s t u : State) (raw : List Byte), ConfigInv s → exec .encv s = .next t → t.statusCode = 0 →
    SameConfig t u → u.configK.toNat ≤ u.shCnt.toNat →
    Holds u .shIdx (List.range u.shCnt.toNat) raw → raw.Nodup →
    (∀ x ∈ raw, x.toNat < u.configN.toNat) →
    (∀ e < u.shCnt.toNat, u.readEntry .shVal e = t.readEntry .cw (raw.getD e 0).toNat) →
    ∃ v, exec .dec u = .next v ∧ v.statusCode = 0 ∧ v.msgLen = u.configK ∧
      ∀ j < u.configK.toNat, v.readEntry .msg j = s.readEntry .msg j

/-- R163: DECL after ENCV under one configuration, the last K codeword positions being kept, recovers the
message. -/
def Obligations.DeclRecoversEncodedMessage : Prop :=
  ∀ s t u : State, ConfigInv s → exec .encv s = .next t → t.statusCode = 0 → SameConfig t u →
    u.cwLen = u.configN →
    (∀ i < u.configN.toNat, u.configN.toNat - u.configK.toNat ≤ i →
      u.readEntry .cw i = t.readEntry .cw i) →
    ∃ v, exec .decl u = .next v ∧ v.statusCode = 0 ∧ v.msgLen = u.configK ∧
      ∀ j < u.configK.toNat, v.readEntry .msg j = s.readEntry .msg j

/-- R166: when DEC succeeds, a selected entry whose index is t < K gives its own value to MSG[t]. -/
def Obligations.SelectedSystematicPositionIsKept : Prop :=
  ∀ (s t : State) (raw : List Byte) (sel : List Nat), exec .dec s = .next t → t.statusCode = 0 →
    Holds s .shIdx (List.range s.shCnt.toNat) raw →
    IsSelection s.configK.toNat (raw.map BitVec.toNat) sel →
    ∀ e ∈ sel, (raw.getD e 0).toNat < s.configK.toNat →
      t.readEntry .msg (raw.getD e 0).toNat = s.readEntry .shVal e

/-- R165, R168: DEC's outcome depends on VALID, K, N, SH_CNT, the indices SH_IDX[0..SH_CNT-1] and the selected
entries' values alone; surplus values are never read. -/
def Obligations.DecDependsOnSelectedValuesOnly : Prop :=
  ∀ s u : State, SameConfig s u → u.shCnt = s.shCnt →
    (∀ e < s.shCnt.toNat, u.readEntry .shIdx e = s.readEntry .shIdx e) →
    (∀ (raw : List Byte) (sel : List Nat), Holds s .shIdx (List.range s.shCnt.toNat) raw →
      IsSelection s.configK.toNat (raw.map BitVec.toNat) sel →
      ∀ e ∈ sel, u.readEntry .shVal e = s.readEntry .shVal e) →
    match exec .dec s, exec .dec u with
    | .next t, .next v => v.statusCode = t.statusCode ∧
        (t.statusCode = 0 → v.msgLen = t.msgLen ∧
          ∀ j < s.configK.toNat, v.readEntry .msg j = t.readEntry .msg j)
    | .fault f, .fault g => g = f
    | _, _ => False

/-! ### Status and failure -/

/-- R203: a command that ends with an error code writes nothing but STATUS. -/
def Obligations.FailureWritesOnlyStatus : Prop :=
  ∀ (i : Instr) (s t : State), exec i s = .next t → t.statusCode ≠ 0 →
    t = { s with statusCode := t.statusCode, statusSticky := true }

/-- R201: the codes each command can end with, no more and no fewer; an illegal word ends with 7. -/
def Obligations.CodesEachCommandEndsWith : Prop :=
  (∀ (x : Mnemonic) (c : Byte), c ∈ codesOf x ↔
    ∃ (i : Instr) (s t : State), i.mnemonic = x ∧ exec i s = .next t ∧ t.statusCode = c) ∧
  ∀ (w : Word) (e : Illegal) (s : State), decode w = .error e →
    ∃ t, execWord w s = .next t ∧ t.statusCode = 7

/-- R30: a failing command sets STICKY, CLRS clears it, every other completed command leaves it; and no host
access but a command, and no event but reset, writes it. -/
def Obligations.StickyIsSetByFailureClearedByClrs : Prop :=
  (∀ (i : Instr) (s t : State), exec i s = .next t →
    t.statusSticky =
      if t.statusCode ≠ 0 then true else if i = .clrs then false else s.statusSticky) ∧
  (∀ (off : Offset) (n : Nat) (s t : State), hostRead off n s = .next t → SameStatus s t) ∧
  (∀ (off : Offset) (n : Nat) (v : Word) (s t : State), off ≠ 0x000 →
    hostWrite off n v s = .next t → SameStatus s t) ∧
  ∀ s : State, s.resetUnit.statusSticky = false

/-- R45: no command reads a flag: with another STATUS before it, a command has the same outcome, but for the
STICKY bit that a success leaves as it was. -/
def Obligations.NoCommandReadsStatus : Prop :=
  ∀ (i : Instr) (s : State) (c : Byte) (b : Bool),
    match exec i s, exec i { s with statusCode := c, statusSticky := b } with
    | .next t, .next v =>
        v = { t with statusSticky :=
          if t.statusCode ≠ 0 then true else if i = .clrs then false else b }
    | .fault f, .fault g => g = f
    | _, _ => False

/-! ### Frames -/

/-- What the register-only commands leave unchanged: the field commands and EVPT write RESULT and STATUS, the
configuration commands CONFIG and STATUS, NOP and CLRS STATUS; no memory, no length, nothing of the host's. -/
def Obligations.RegisterCommandsFrame : Prop :=
  ∀ (i : Instr) (s t : State), exec i s = .next t →
    (i.mnemonic ∈ [.gadd, .gsub, .gmul, .gdiv, .gpow, .evpt] →
      SameConfig s t ∧ SameLengths s t ∧ SameBuffers s t ∧ SameHost s t) ∧
    (i.mnemonic ∈ [.cfge, .cfgd] →
      t.result = s.result ∧ SameLengths s t ∧ SameBuffers s t ∧ SameHost s t) ∧
    (i.mnemonic ∈ [.nop, .clrs] →
      t.result = s.result ∧ SameConfig s t ∧ SameLengths s t ∧ SameBuffers s t ∧ SameHost s t)

/-- R26: what ENCV and ENCC leave unchanged: everything but STATUS, CW_LEN and CW[0..N-1]. -/
def Obligations.EncodersFrame : Prop :=
  ∀ (i : Instr) (s t : State), i = .encv ∨ i = .encc → exec i s = .next t →
    t.result = s.result ∧ SameConfig s t ∧ t.msgLen = s.msgLen ∧ t.shCnt = s.shCnt ∧
    SameBuffer .msg s t ∧ SameBuffer .shIdx s t ∧ SameBuffer .shVal s t ∧ SameHost s t ∧
    ∀ j, ¬ j < s.configN.toNat → t.readEntry .cw j = s.readEntry .cw j

/-- R26: what DEC and DECL leave unchanged: everything but STATUS, MSG_LEN and MSG[0..K-1]. -/
def Obligations.DecodersFrame : Prop :=
  ∀ (i : Instr) (s t : State), i = .dec ∨ i = .decl → exec i s = .next t →
    t.result = s.result ∧ SameConfig s t ∧ t.cwLen = s.cwLen ∧ t.shCnt = s.shCnt ∧
    SameBuffer .cw s t ∧ SameBuffer .shIdx s t ∧ SameBuffer .shVal s t ∧ SameHost s t ∧
    ∀ j, ¬ j < s.configK.toNat → t.readEntry .msg j = s.readEntry .msg j

/-! ### The host window -/

/-- R28, R31, R32, R35 to R37, R59: a 4-byte read of each readable register returns its fields at their places
and zeros elsewhere, and changes nothing but the host's list of values read; a 4-byte write of v to a length
register stores v[7:0] and changes nothing else. The list of values read is the model's own (log entry 6). -/
def Obligations.RegisterAccessesMoveFields : Prop :=
  (∀ s : State,
    (∃ w : Word, hostRead 0x004 4 s = .next (s.pushRead w) ∧
      w.toNat = s.statusCode.toNat + 2 ^ 8 * s.statusSticky.toNat) ∧
    (∃ w : Word, hostRead 0x008 4 s = .next (s.pushRead w) ∧ w.toNat = s.result.toNat) ∧
    (∃ w : Word, hostRead 0x00C 4 s = .next (s.pushRead w) ∧
      w.toNat = s.configK.toNat + 2 ^ 8 * s.configN.toNat + 2 ^ 16 * s.configValid.toNat) ∧
    (∃ w : Word, hostRead 0x010 4 s = .next (s.pushRead w) ∧ w.toNat = s.msgLen.toNat) ∧
    (∃ w : Word, hostRead 0x014 4 s = .next (s.pushRead w) ∧ w.toNat = s.cwLen.toNat) ∧
    (∃ w : Word, hostRead 0x018 4 s = .next (s.pushRead w) ∧ w.toNat = s.shCnt.toNat)) ∧
  ∀ (v : Word) (s : State),
    hostWrite 0x010 4 v s = .next { s with msgLen := v.extractLsb' 0 8 } ∧
    hostWrite 0x014 4 v s = .next { s with cwLen := v.extractLsb' 0 8 } ∧
    hostWrite 0x018 4 v s = .next { s with shCnt := v.extractLsb' 0 8 }

/-- R59, R64: a 1-byte write to a buffer entry is what a 1-byte read of it then returns, and every other
entry, every register and the host's side stay. That a read is recorded in `reads`, a byte as a 32-bit word with
zeros above it, is the model's choice (log entry 6). -/
def Obligations.BufferWriteIsReadBack : Prop :=
  ∀ (b : Buf) (i : Nat) (v : Word) (s : State), i < 255 →
    ∃ t, hostWrite (BitVec.ofNat 12 (b.base + i)) 1 v s = .next t ∧
      hostRead (BitVec.ofNat 12 (b.base + i)) 1 t = .next (t.pushRead (v &&& 0xFF)) ∧
      (∀ (b' : Buf) (j : Nat), (b', j) ≠ (b, i) → t.readEntry b' j = s.readEntry b' j) ∧
      t.readEntry b i = some (v.extractLsb' 0 8) ∧
      SameStatus s t ∧ t.result = s.result ∧ SameConfig s t ∧ SameLengths s t ∧ SameHost s t

/-- R53 to R56: a read is a BusFault exactly when its offset and width are not admitted for reads, and a
write exactly when they are not admitted for writes, whatever the width, also one that no bus has (log entry
10). -/
def Obligations.InadmissibleAccessIsBusFault : Prop :=
  (∀ (off : Offset) (n : Nat) (s : State),
    hostRead off n s = .fault (.busFault off) ↔ ¬ readAdmitted off n) ∧
  ∀ (off : Offset) (n : Nat) (v : Word) (s : State),
    hostWrite off n v s = .fault (.busFault off) ↔ ¬ writeAdmitted off n

/-- R27: the host's read of an unwritten entry is the fault UnwrittenRead; and no read of a written entry is
one. The fault is the treatment the spec directs (U3, log entry 3). That a read is recorded in `reads`, a byte as a
32-bit word with zeros above it, is the model's choice (log entry 6). -/
def Obligations.UnwrittenEntryReadFaults : Prop :=
  ∀ (b : Buf) (i : Nat) (s : State), i < 255 →
    (s.readEntry b i = none →
      hostRead (BitVec.ofNat 12 (b.base + i)) 1 s = .fault (.unwrittenRead b i)) ∧
    ∀ v, s.readEntry b i = some v →
      hostRead (BitVec.ofNat 12 (b.base + i)) 1 s = .next (s.pushRead (v.setWidth 32))

/-- R8, R51: UNIT_BASE is a multiple of 0x1000; an access at a host address in the window is the access at the
offset from UNIT_BASE, and an access at any other address is not the unit's: the model refuses it by name (log
entries 2 and 12). -/
def Obligations.WindowStandsAtUnitBase : Prop :=
  Config.unitBase % 0x1000 = 0 ∧
  (∀ (off : Offset) (n : Nat) (s : State),
    performEvent (.read (.address (Config.unitBase + off.toNat)) n) s = hostRead off n s) ∧
  (∀ (off : Offset) (n : Nat) (v : Word) (s : State),
    performEvent (.write (.address (Config.unitBase + off.toNat)) n v) s = hostWrite off n v s) ∧
  ∀ (a n : Nat) (v : Word) (s : State),
    a < Config.unitBase ∨ Config.unitBase + 0x1000 ≤ a →
    performEvent (.read (.address a) n) s = .refused (.outsideWindow a) ∧
    performEvent (.write (.address a) n v) s = .refused (.outsideWindow a)

/-! ### The invariant -/

/-- The invariant holds after reset (R33, R230). -/
def Obligations.ResetMeetsInvariant : Prop := Inv State.reset

/-- From every state that meets the invariant, a step gives a state that meets it: the configuration is legal
or absent (R33), the status code is one of 0 to 7 and an error code stands beside STICKY = 1 (R200, R30), and
the buffers keep their canonical form and size (R25). -/
def Obligations.StepKeepsInvariant : Prop := ∀ s t : State, Inv s → step s = .next t → Inv t
end

