-- ==== Sys2Proof/Laws/State.lean ====
section
/-! SUPPORT. One lemma per field per update of State, each true by rfl: later proofs never unfold a record update. -/

namespace Sys2Proof.Machine

variable (s : State)

section setStatus

variable (c : Byte) (b : Bool)

@[simp] theorem State.statusCode_setStatus : (s.setStatus c b).statusCode = c := rfl
@[simp] theorem State.statusSticky_setStatus : (s.setStatus c b).statusSticky = b := rfl
@[simp] theorem State.result_setStatus : (s.setStatus c b).result = s.result := rfl
@[simp] theorem State.configK_setStatus : (s.setStatus c b).configK = s.configK := rfl
@[simp] theorem State.configN_setStatus : (s.setStatus c b).configN = s.configN := rfl
@[simp] theorem State.configValid_setStatus : (s.setStatus c b).configValid = s.configValid := rfl
@[simp] theorem State.msgLen_setStatus : (s.setStatus c b).msgLen = s.msgLen := rfl
@[simp] theorem State.cwLen_setStatus : (s.setStatus c b).cwLen = s.cwLen := rfl
@[simp] theorem State.shCnt_setStatus : (s.setStatus c b).shCnt = s.shCnt := rfl
@[simp] theorem State.msg_setStatus : (s.setStatus c b).msg = s.msg := rfl
@[simp] theorem State.cw_setStatus : (s.setStatus c b).cw = s.cw := rfl
@[simp] theorem State.shIdx_setStatus : (s.setStatus c b).shIdx = s.shIdx := rfl
@[simp] theorem State.shVal_setStatus : (s.setStatus c b).shVal = s.shVal := rfl
@[simp] theorem State.pending_setStatus : (s.setStatus c b).pending = s.pending := rfl
@[simp] theorem State.reads_setStatus : (s.setStatus c b).reads = s.reads := rfl
@[simp] theorem State.buf_setStatus (b' : Buf) : (s.setStatus c b).buf b' = s.buf b' := by cases b' <;> rfl
@[simp] theorem State.readEntry_setStatus : (s.setStatus c b).readEntry = s.readEntry := by
  funext b' i; simp [State.readEntry]

end setStatus

section setResult

variable (r : Byte)

@[simp] theorem State.statusCode_setResult : (s.setResult r).statusCode = s.statusCode := rfl
@[simp] theorem State.statusSticky_setResult : (s.setResult r).statusSticky = s.statusSticky := rfl
@[simp] theorem State.result_setResult : (s.setResult r).result = r := rfl
@[simp] theorem State.configK_setResult : (s.setResult r).configK = s.configK := rfl
@[simp] theorem State.configN_setResult : (s.setResult r).configN = s.configN := rfl
@[simp] theorem State.configValid_setResult : (s.setResult r).configValid = s.configValid := rfl
@[simp] theorem State.msgLen_setResult : (s.setResult r).msgLen = s.msgLen := rfl
@[simp] theorem State.cwLen_setResult : (s.setResult r).cwLen = s.cwLen := rfl
@[simp] theorem State.shCnt_setResult : (s.setResult r).shCnt = s.shCnt := rfl
@[simp] theorem State.msg_setResult : (s.setResult r).msg = s.msg := rfl
@[simp] theorem State.cw_setResult : (s.setResult r).cw = s.cw := rfl
@[simp] theorem State.shIdx_setResult : (s.setResult r).shIdx = s.shIdx := rfl
@[simp] theorem State.shVal_setResult : (s.setResult r).shVal = s.shVal := rfl
@[simp] theorem State.pending_setResult : (s.setResult r).pending = s.pending := rfl
@[simp] theorem State.reads_setResult : (s.setResult r).reads = s.reads := rfl
@[simp] theorem State.buf_setResult (b' : Buf) : (s.setResult r).buf b' = s.buf b' := by cases b' <;> rfl
@[simp] theorem State.readEntry_setResult : (s.setResult r).readEntry = s.readEntry := by
  funext b' i; simp [State.readEntry]

end setResult

section setConfig

variable (k n : Byte)

@[simp] theorem State.statusCode_setConfig : (s.setConfig k n).statusCode = s.statusCode := rfl
@[simp] theorem State.statusSticky_setConfig : (s.setConfig k n).statusSticky = s.statusSticky := rfl
@[simp] theorem State.result_setConfig : (s.setConfig k n).result = s.result := rfl
@[simp] theorem State.configK_setConfig : (s.setConfig k n).configK = k := rfl
@[simp] theorem State.configN_setConfig : (s.setConfig k n).configN = n := rfl
@[simp] theorem State.configValid_setConfig : (s.setConfig k n).configValid = true := rfl
@[simp] theorem State.msgLen_setConfig : (s.setConfig k n).msgLen = s.msgLen := rfl
@[simp] theorem State.cwLen_setConfig : (s.setConfig k n).cwLen = s.cwLen := rfl
@[simp] theorem State.shCnt_setConfig : (s.setConfig k n).shCnt = s.shCnt := rfl
@[simp] theorem State.msg_setConfig : (s.setConfig k n).msg = s.msg := rfl
@[simp] theorem State.cw_setConfig : (s.setConfig k n).cw = s.cw := rfl
@[simp] theorem State.shIdx_setConfig : (s.setConfig k n).shIdx = s.shIdx := rfl
@[simp] theorem State.shVal_setConfig : (s.setConfig k n).shVal = s.shVal := rfl
@[simp] theorem State.pending_setConfig : (s.setConfig k n).pending = s.pending := rfl
@[simp] theorem State.reads_setConfig : (s.setConfig k n).reads = s.reads := rfl
@[simp] theorem State.buf_setConfig (b' : Buf) : (s.setConfig k n).buf b' = s.buf b' := by cases b' <;> rfl
@[simp] theorem State.readEntry_setConfig : (s.setConfig k n).readEntry = s.readEntry := by
  funext b' i; simp [State.readEntry]

end setConfig

section setMsgLen

variable (v : Byte)

@[simp] theorem State.statusCode_setMsgLen : (s.setMsgLen v).statusCode = s.statusCode := rfl
@[simp] theorem State.statusSticky_setMsgLen : (s.setMsgLen v).statusSticky = s.statusSticky := rfl
@[simp] theorem State.result_setMsgLen : (s.setMsgLen v).result = s.result := rfl
@[simp] theorem State.configK_setMsgLen : (s.setMsgLen v).configK = s.configK := rfl
@[simp] theorem State.configN_setMsgLen : (s.setMsgLen v).configN = s.configN := rfl
@[simp] theorem State.configValid_setMsgLen : (s.setMsgLen v).configValid = s.configValid := rfl
@[simp] theorem State.msgLen_setMsgLen : (s.setMsgLen v).msgLen = v := rfl
@[simp] theorem State.cwLen_setMsgLen : (s.setMsgLen v).cwLen = s.cwLen := rfl
@[simp] theorem State.shCnt_setMsgLen : (s.setMsgLen v).shCnt = s.shCnt := rfl
@[simp] theorem State.msg_setMsgLen : (s.setMsgLen v).msg = s.msg := rfl
@[simp] theorem State.cw_setMsgLen : (s.setMsgLen v).cw = s.cw := rfl
@[simp] theorem State.shIdx_setMsgLen : (s.setMsgLen v).shIdx = s.shIdx := rfl
@[simp] theorem State.shVal_setMsgLen : (s.setMsgLen v).shVal = s.shVal := rfl
@[simp] theorem State.pending_setMsgLen : (s.setMsgLen v).pending = s.pending := rfl
@[simp] theorem State.reads_setMsgLen : (s.setMsgLen v).reads = s.reads := rfl
@[simp] theorem State.buf_setMsgLen (b' : Buf) : (s.setMsgLen v).buf b' = s.buf b' := by cases b' <;> rfl
@[simp] theorem State.readEntry_setMsgLen : (s.setMsgLen v).readEntry = s.readEntry := by
  funext b' i; simp [State.readEntry]

end setMsgLen

section setCwLen

variable (v : Byte)

@[simp] theorem State.statusCode_setCwLen : (s.setCwLen v).statusCode = s.statusCode := rfl
@[simp] theorem State.statusSticky_setCwLen : (s.setCwLen v).statusSticky = s.statusSticky := rfl
@[simp] theorem State.result_setCwLen : (s.setCwLen v).result = s.result := rfl
@[simp] theorem State.configK_setCwLen : (s.setCwLen v).configK = s.configK := rfl
@[simp] theorem State.configN_setCwLen : (s.setCwLen v).configN = s.configN := rfl
@[simp] theorem State.configValid_setCwLen : (s.setCwLen v).configValid = s.configValid := rfl
@[simp] theorem State.msgLen_setCwLen : (s.setCwLen v).msgLen = s.msgLen := rfl
@[simp] theorem State.cwLen_setCwLen : (s.setCwLen v).cwLen = v := rfl
@[simp] theorem State.shCnt_setCwLen : (s.setCwLen v).shCnt = s.shCnt := rfl
@[simp] theorem State.msg_setCwLen : (s.setCwLen v).msg = s.msg := rfl
@[simp] theorem State.cw_setCwLen : (s.setCwLen v).cw = s.cw := rfl
@[simp] theorem State.shIdx_setCwLen : (s.setCwLen v).shIdx = s.shIdx := rfl
@[simp] theorem State.shVal_setCwLen : (s.setCwLen v).shVal = s.shVal := rfl
@[simp] theorem State.pending_setCwLen : (s.setCwLen v).pending = s.pending := rfl
@[simp] theorem State.reads_setCwLen : (s.setCwLen v).reads = s.reads := rfl
@[simp] theorem State.buf_setCwLen (b' : Buf) : (s.setCwLen v).buf b' = s.buf b' := by cases b' <;> rfl
@[simp] theorem State.readEntry_setCwLen : (s.setCwLen v).readEntry = s.readEntry := by
  funext b' i; simp [State.readEntry]

end setCwLen

section setShCnt

variable (v : Byte)

@[simp] theorem State.statusCode_setShCnt : (s.setShCnt v).statusCode = s.statusCode := rfl
@[simp] theorem State.statusSticky_setShCnt : (s.setShCnt v).statusSticky = s.statusSticky := rfl
@[simp] theorem State.result_setShCnt : (s.setShCnt v).result = s.result := rfl
@[simp] theorem State.configK_setShCnt : (s.setShCnt v).configK = s.configK := rfl
@[simp] theorem State.configN_setShCnt : (s.setShCnt v).configN = s.configN := rfl
@[simp] theorem State.configValid_setShCnt : (s.setShCnt v).configValid = s.configValid := rfl
@[simp] theorem State.msgLen_setShCnt : (s.setShCnt v).msgLen = s.msgLen := rfl
@[simp] theorem State.cwLen_setShCnt : (s.setShCnt v).cwLen = s.cwLen := rfl
@[simp] theorem State.shCnt_setShCnt : (s.setShCnt v).shCnt = v := rfl
@[simp] theorem State.msg_setShCnt : (s.setShCnt v).msg = s.msg := rfl
@[simp] theorem State.cw_setShCnt : (s.setShCnt v).cw = s.cw := rfl
@[simp] theorem State.shIdx_setShCnt : (s.setShCnt v).shIdx = s.shIdx := rfl
@[simp] theorem State.shVal_setShCnt : (s.setShCnt v).shVal = s.shVal := rfl
@[simp] theorem State.pending_setShCnt : (s.setShCnt v).pending = s.pending := rfl
@[simp] theorem State.reads_setShCnt : (s.setShCnt v).reads = s.reads := rfl
@[simp] theorem State.buf_setShCnt (b' : Buf) : (s.setShCnt v).buf b' = s.buf b' := by cases b' <;> rfl
@[simp] theorem State.readEntry_setShCnt : (s.setShCnt v).readEntry = s.readEntry := by
  funext b' i; simp [State.readEntry]

end setShCnt

section setPending

variable (es : List HostEvent)

@[simp] theorem State.statusCode_setPending : (s.setPending es).statusCode = s.statusCode := rfl
@[simp] theorem State.statusSticky_setPending : (s.setPending es).statusSticky = s.statusSticky := rfl
@[simp] theorem State.result_setPending : (s.setPending es).result = s.result := rfl
@[simp] theorem State.configK_setPending : (s.setPending es).configK = s.configK := rfl
@[simp] theorem State.configN_setPending : (s.setPending es).configN = s.configN := rfl
@[simp] theorem State.configValid_setPending : (s.setPending es).configValid = s.configValid := rfl
@[simp] theorem State.msgLen_setPending : (s.setPending es).msgLen = s.msgLen := rfl
@[simp] theorem State.cwLen_setPending : (s.setPending es).cwLen = s.cwLen := rfl
@[simp] theorem State.shCnt_setPending : (s.setPending es).shCnt = s.shCnt := rfl
@[simp] theorem State.msg_setPending : (s.setPending es).msg = s.msg := rfl
@[simp] theorem State.cw_setPending : (s.setPending es).cw = s.cw := rfl
@[simp] theorem State.shIdx_setPending : (s.setPending es).shIdx = s.shIdx := rfl
@[simp] theorem State.shVal_setPending : (s.setPending es).shVal = s.shVal := rfl
@[simp] theorem State.pending_setPending : (s.setPending es).pending = es := rfl
@[simp] theorem State.reads_setPending : (s.setPending es).reads = s.reads := rfl
@[simp] theorem State.buf_setPending (b' : Buf) : (s.setPending es).buf b' = s.buf b' := by cases b' <;> rfl
@[simp] theorem State.readEntry_setPending : (s.setPending es).readEntry = s.readEntry := by
  funext b' i; simp [State.readEntry]

end setPending

section pushRead

variable (w : Word)

@[simp] theorem State.statusCode_pushRead : (s.pushRead w).statusCode = s.statusCode := rfl
@[simp] theorem State.statusSticky_pushRead : (s.pushRead w).statusSticky = s.statusSticky := rfl
@[simp] theorem State.result_pushRead : (s.pushRead w).result = s.result := rfl
@[simp] theorem State.configK_pushRead : (s.pushRead w).configK = s.configK := rfl
@[simp] theorem State.configN_pushRead : (s.pushRead w).configN = s.configN := rfl
@[simp] theorem State.configValid_pushRead : (s.pushRead w).configValid = s.configValid := rfl
@[simp] theorem State.msgLen_pushRead : (s.pushRead w).msgLen = s.msgLen := rfl
@[simp] theorem State.cwLen_pushRead : (s.pushRead w).cwLen = s.cwLen := rfl
@[simp] theorem State.shCnt_pushRead : (s.pushRead w).shCnt = s.shCnt := rfl
@[simp] theorem State.msg_pushRead : (s.pushRead w).msg = s.msg := rfl
@[simp] theorem State.cw_pushRead : (s.pushRead w).cw = s.cw := rfl
@[simp] theorem State.shIdx_pushRead : (s.pushRead w).shIdx = s.shIdx := rfl
@[simp] theorem State.shVal_pushRead : (s.pushRead w).shVal = s.shVal := rfl
@[simp] theorem State.pending_pushRead : (s.pushRead w).pending = s.pending := rfl
@[simp] theorem State.reads_pushRead : (s.pushRead w).reads = s.reads ++ [w] := rfl
@[simp] theorem State.buf_pushRead (b' : Buf) : (s.pushRead w).buf b' = s.buf b' := by cases b' <;> rfl
@[simp] theorem State.readEntry_pushRead : (s.pushRead w).readEntry = s.readEntry := by
  funext b' i; simp [State.readEntry]

end pushRead

section withBuf

variable (b : Buf) (m : Memory)

@[simp] theorem State.statusCode_withBuf : (s.withBuf b m).statusCode = s.statusCode := by cases b <;> rfl
@[simp] theorem State.statusSticky_withBuf : (s.withBuf b m).statusSticky = s.statusSticky := by cases b <;> rfl
@[simp] theorem State.result_withBuf : (s.withBuf b m).result = s.result := by cases b <;> rfl
@[simp] theorem State.configK_withBuf : (s.withBuf b m).configK = s.configK := by cases b <;> rfl
@[simp] theorem State.configN_withBuf : (s.withBuf b m).configN = s.configN := by cases b <;> rfl
@[simp] theorem State.configValid_withBuf : (s.withBuf b m).configValid = s.configValid := by cases b <;> rfl
@[simp] theorem State.msgLen_withBuf : (s.withBuf b m).msgLen = s.msgLen := by cases b <;> rfl
@[simp] theorem State.cwLen_withBuf : (s.withBuf b m).cwLen = s.cwLen := by cases b <;> rfl
@[simp] theorem State.shCnt_withBuf : (s.withBuf b m).shCnt = s.shCnt := by cases b <;> rfl
theorem State.msg_withBuf : (s.withBuf b m).msg = if b = .msg then m else s.msg := by
  cases b <;> rfl
theorem State.cw_withBuf : (s.withBuf b m).cw = if b = .cw then m else s.cw := by
  cases b <;> rfl
theorem State.shIdx_withBuf : (s.withBuf b m).shIdx = if b = .shIdx then m else s.shIdx := by
  cases b <;> rfl
theorem State.shVal_withBuf : (s.withBuf b m).shVal = if b = .shVal then m else s.shVal := by
  cases b <;> rfl
@[simp] theorem State.pending_withBuf : (s.withBuf b m).pending = s.pending := by cases b <;> rfl
@[simp] theorem State.reads_withBuf : (s.withBuf b m).reads = s.reads := by cases b <;> rfl

theorem State.buf_withBuf (b' : Buf) : (s.withBuf b m).buf b' = if b = b' then m else s.buf b' := by
  cases b <;> cases b' <;> rfl

@[simp] theorem State.buf_withBuf_same : (s.withBuf b m).buf b = m := by simp [State.buf_withBuf]

end withBuf

@[simp] theorem State.statusCode_resetUnit : s.resetUnit.statusCode = State.reset.statusCode := rfl
@[simp] theorem State.statusSticky_resetUnit : s.resetUnit.statusSticky = State.reset.statusSticky := rfl
@[simp] theorem State.result_resetUnit : s.resetUnit.result = State.reset.result := rfl
@[simp] theorem State.configK_resetUnit : s.resetUnit.configK = State.reset.configK := rfl
@[simp] theorem State.configN_resetUnit : s.resetUnit.configN = State.reset.configN := rfl
@[simp] theorem State.configValid_resetUnit : s.resetUnit.configValid = State.reset.configValid := rfl
@[simp] theorem State.msgLen_resetUnit : s.resetUnit.msgLen = State.reset.msgLen := rfl
@[simp] theorem State.cwLen_resetUnit : s.resetUnit.cwLen = State.reset.cwLen := rfl
@[simp] theorem State.shCnt_resetUnit : s.resetUnit.shCnt = State.reset.shCnt := rfl
@[simp] theorem State.msg_resetUnit : s.resetUnit.msg = State.reset.msg := rfl
@[simp] theorem State.cw_resetUnit : s.resetUnit.cw = State.reset.cw := rfl
@[simp] theorem State.shIdx_resetUnit : s.resetUnit.shIdx = State.reset.shIdx := rfl
@[simp] theorem State.shVal_resetUnit : s.resetUnit.shVal = State.reset.shVal := rfl
@[simp] theorem State.pending_resetUnit : s.resetUnit.pending = s.pending := rfl
@[simp] theorem State.reads_resetUnit : s.resetUnit.reads = s.reads := rfl

@[simp] theorem State.writeEntry_eq (b : Buf) (i : Nat) (v : Byte) :
    s.writeEntry b i v = s.withBuf b ((s.buf b).store i v) := rfl

@[simp] theorem State.writeEntries_eq (b : Buf) (vs : List Byte) :
    s.writeEntries b vs = s.withBuf b ((s.buf b).storeAll 0 vs) := rfl

end Sys2Proof.Machine
end

