-- ==== Sys2Proof/Laws/Operands.lean ====
section
/-! SUPPORT. What gathering operands answers: the values, all of them written, or the first unwritten entry. -/

namespace Sys2Proof.Machine

/-- `gather` answers values exactly when every entry named holds one, and answers those. -/
theorem State.gather_eq_ok (s : State) (b : Buf) (is : List Nat) (vs : List Byte) :
    s.gather b is = .ok vs ↔ is.map (s.readEntry b) = vs.map some := by
  induction is generalizing vs with
  | nil => cases vs <;> simp [State.gather]
  | cons i is ih =>
    unfold State.gather
    cases h : s.readEntry b i with
    | none => cases vs <;> simp [h]
    | some v =>
      cases hg : s.gather b is with
      | error f =>
        cases vs with
        | nil => simp
        | cons w ws =>
          have := ih ws
          simp only [hg, reduceCtorEq, false_iff] at this
          simp [h, this]
      | ok us =>
        cases vs with
        | nil => simp
        | cons w ws =>
          have hu := (ih us).1 hg
          simp only [Except.ok.injEq, List.cons.injEq, List.map_cons, h, Option.some.injEq, hu]
          exact and_congr_right fun _ =>
            ⟨fun e => by rw [e], fun e => List.map_injective_iff.2 (Option.some_injective _) e⟩

/-- `gather` answers a fault exactly at the first unwritten entry of the list. -/
theorem State.gather_eq_error (s : State) (b : Buf) (is : List Nat) (f : Fault) :
    s.gather b is = .error f ↔
      ∃ l i r, is = l ++ i :: r ∧ (∀ j ∈ l, s.readEntry b j ≠ none) ∧
        s.readEntry b i = none ∧ f = .unwrittenRead b i := by
  induction is with
  | nil => simp [State.gather]
  | cons a is ih =>
    unfold State.gather
    cases h : s.readEntry b a with
    | none =>
      constructor
      · intro e
        exact ⟨[], a, is, rfl, by simp, h, by simpa using e.symm⟩
      · rintro ⟨l, i, r, hl, hw, hi, rfl⟩
        cases l with
        | nil => simp at hl; simp [hl.1]
        | cons c l => simp at hl; exact absurd (hl.1 ▸ h) (hw c (by simp))
    | some v =>
      have key : (∃ l i r, a :: is = l ++ i :: r ∧ (∀ j ∈ l, s.readEntry b j ≠ none) ∧
          s.readEntry b i = none ∧ f = .unwrittenRead b i) ↔
          ∃ l i r, is = l ++ i :: r ∧ (∀ j ∈ l, s.readEntry b j ≠ none) ∧
            s.readEntry b i = none ∧ f = .unwrittenRead b i := by
        constructor
        · rintro ⟨l, i, r, hl, hw, hi, hf⟩
          cases l with
          | nil => simp at hl; simp [← hl.1, h] at hi
          | cons c l =>
            simp at hl
            exact ⟨l, i, r, hl.2, fun j hj => hw j (List.mem_cons_of_mem _ hj), hi, hf⟩
        · rintro ⟨l, i, r, rfl, hw, hi, hf⟩
          refine ⟨a :: l, i, r, rfl, fun j hj => ?_, hi, hf⟩
          rcases List.mem_cons.1 hj with rfl | hj
          · simp [h]
          · exact hw j hj
      rw [key, ← ih]
      cases s.gather b is <;> simp

/-- `allSome` answers the values exactly when there is no error among them. -/
theorem allSome_eq_some {α : Type} (l : List (Option α)) (vs : List α) :
    allSome l = some vs ↔ l = vs.map some := by
  induction l generalizing vs with
  | nil => cases vs <;> simp [allSome]
  | cons o l ih =>
    cases o with
    | none => cases vs <;> simp [allSome]
    | some v => cases vs <;> simp [allSome, ih, and_comm]

/-- Values computed without an error are all answered. -/
@[simp] theorem allSome_map_some {α β : Type} (f : α → β) (l : List α) :
    allSome (l.map fun x => some (f x)) = some (l.map f) := by
  rw [allSome_eq_some, List.map_map]; rfl

/-- A shard index below 255 has its own nonzero evaluation point (R120). -/
theorem point_toNat {i : Nat} (h : i < 255) : (point i).toNat = i + 1 := by
  rw [point, BitVec.toNat_ofNat, Nat.mod_eq_of_lt (by omega)]

end Sys2Proof.Machine
end

