-- ==== Sys2Proof/Laws/Field.lean ====
section
/-! SUPPORT. The linearity of the field functions, and when interpolation meets no division by zero. -/

namespace Sys2Proof.Machine

/-- This unit's polynomial is one of the 30 legal ones (R5). -/
theorem gfPoly_legal : Config.gfPoly ∈ Config.legalPolys := List.get_mem _ _

/-- Every legal polynomial has degree 8 (R5). -/
theorem legalPolys_degree {p : BitVec 9} (h : p ∈ Config.legalPolys) : p.getLsbD 8 = true := by
  revert p; decide

theorem reduceStep_xor (p : BitVec 9) (c d : BitVec 15) (k : Nat) :
    reduceStep p (c ^^^ d) k = reduceStep p c k ^^^ reduceStep p d k := by
  unfold reduceStep
  rw [BitVec.getLsbD_xor]
  cases c.getLsbD k <;> cases d.getLsbD k <;> simp only [Bool.xor_false, Bool.xor_true,
    Bool.not_false, Bool.not_true, if_true, if_false, Bool.false_eq_true]
  · ac_rfl
  · ac_rfl
  · rw [show ∀ x y z : BitVec 15, x ^^^ z ^^^ (y ^^^ z) = x ^^^ y ^^^ (z ^^^ z) by intros; ac_rfl]
    simp

/-- Reduction is linear (R103). -/
theorem gfReduce_xor (p : BitVec 9) (c d : BitVec 15) :
    gfReduce p (c ^^^ d) = gfReduce p c ^^^ gfReduce p d := by
  have key : ∀ (l : List Nat) (c d : BitVec 15),
      l.foldl (reduceStep p) (c ^^^ d) = l.foldl (reduceStep p) c ^^^ l.foldl (reduceStep p) d := by
    intro l
    induction l with
    | nil => intro c d; rfl
    | cons k l ih => intro c d; simp only [List.foldl_cons, reduceStep_xor, ih]
  simp only [gfReduce, key, BitVec.setWidth_xor]

/-- The carry-less product as a sum of terms, one for each bit of the second factor (R102). -/
theorem clmul_eq (a b : Byte) :
    clmul a b = (List.range 8).foldl
      (fun c i => c ^^^ (if b.getLsbD i then a.setWidth 15 <<< i else 0)) 0 := by
  unfold clmul
  congr 1
  funext c i
  split_ifs <;> simp

/-- A sum of sums of terms is the sum of the two sums. -/
theorem foldl_xor_xor {w : Nat} (f g : Nat → BitVec w) (l : List Nat) (x y : BitVec w) :
    l.foldl (fun c i => c ^^^ (f i ^^^ g i)) (x ^^^ y) =
      l.foldl (fun c i => c ^^^ f i) x ^^^ l.foldl (fun c i => c ^^^ g i) y := by
  induction l generalizing x y with
  | nil => rfl
  | cons i l ih =>
    simp only [List.foldl_cons, ← ih]
    congr 1
    ac_rfl

/-- The carry-less product is linear in its first factor. -/
theorem clmul_xor_left (a a' b : Byte) : clmul (a ^^^ a') b = clmul a b ^^^ clmul a' b := by
  simp only [clmul_eq, ← foldl_xor_xor, BitVec.xor_self]
  congr 1
  funext c i
  split_ifs
  · rw [BitVec.setWidth_xor, BitVec.shiftLeft_xor_distrib]
  · simp

/-- The carry-less product is linear in its second factor. -/
theorem clmul_xor_right (a b b' : Byte) : clmul a (b ^^^ b') = clmul a b ^^^ clmul a b' := by
  simp only [clmul_eq, ← foldl_xor_xor, BitVec.xor_self]
  congr 1
  funext c i
  rw [BitVec.getLsbD_xor]
  cases b.getLsbD i <;> cases b'.getLsbD i <;> simp

/-- Multiplication distributes over addition on the right factor's side. -/
theorem gfMul_xor_left (p : BitVec 9) (a a' b : Byte) :
    gfMul p (a ^^^ a') b = gfMul p a b ^^^ gfMul p a' b := by
  simp only [gfMul, clmul_xor_left, gfReduce_xor]

theorem gfMul_xor_right (p : BitVec 9) (a b b' : Byte) :
    gfMul p a (b ^^^ b') = gfMul p a b ^^^ gfMul p a b' := by
  simp only [gfMul, clmul_xor_right, gfReduce_xor]

/-- Division is an error exactly for the divisor 0 (R106). -/
theorem gfDiv_eq_none (p : BitVec 9) (a b : Byte) : gfDiv p a b = none ↔ b = 0 := by
  unfold gfDiv
  by_cases h : b = 0
  · exact iff_of_true (if_pos h) h
  · exact iff_of_false (by rw [if_neg h]; simp) h

theorem gfDiv_of_ne_zero (p : BitVec 9) (a : Byte) {b : Byte} (h : b ≠ 0) :
    gfDiv p a b = some (gfMul p a (gfInv p b)) := if_neg h

/-- A list without errors has values. -/
theorem allSome_map_of_forall {α β : Type} {f : α → Option β} {l : List α}
    (h : ∀ x ∈ l, (f x).isSome) : ∃ vs, allSome (l.map f) = some vs ∧ l.map f = vs.map some := by
  suffices ∃ vs : List β, l.map f = vs.map some by
    obtain ⟨vs, hv⟩ := this
    exact ⟨vs, (allSome_eq_some _ _).2 hv, hv⟩
  induction l with
  | nil => exact ⟨[], rfl⟩
  | cons x l ih =>
    obtain ⟨v, hv⟩ := Option.isSome_iff_exists.1 (h x (by simp))
    obtain ⟨vs, hvs⟩ := ih fun y hy => h y (List.mem_cons_of_mem _ hy)
    exact ⟨v :: vs, by simp [hv, hvs]⟩

/-- Over distinct points a basis term meets no division by zero (R140). -/
theorem basis_isSome (p : BitVec 9) {xs : List Byte} (hx : xs.Nodup) {j : Nat} (hj : j < xs.length)
    (x : Byte) : (basis p xs j x).isSome := by
  unfold basis
  rw [Option.isSome_map]
  obtain ⟨vs, hv, -⟩ := allSome_map_of_forall
    (f := fun j' => gfDiv p (gfSub x (xs.getD j' 0)) (gfSub (xs.getD j 0) (xs.getD j' 0)))
    (l := (List.range xs.length).filter (· ≠ j)) fun j' h => by
      obtain ⟨h1, h2⟩ := List.mem_filter.1 h
      rw [List.mem_range] at h1
      rw [Option.isSome_iff_ne_none, Ne, gfDiv_eq_none, gfSub]
      intro h0
      have : xs.getD j 0 = xs.getD j' 0 := by simpa using h0
      rw [List.getD_eq_getElem _ _ hj, List.getD_eq_getElem _ _ h1] at this
      exact of_decide_eq_true h2 ((List.Nodup.getElem_inj_iff hx).1 this).symm
  rw [hv]; rfl

/-- Over distinct points interpolation meets no division by zero (R140, R143, R160). -/
theorem interp_isSome (p : BitVec 9) {xs : List Byte} (hx : xs.Nodup) (ys : List Byte) (x : Byte) :
    (interp p xs ys x).isSome := by
  unfold interp
  rw [Option.isSome_map]
  obtain ⟨vs, hv, -⟩ := allSome_map_of_forall
    (f := fun j => (basis p xs j x).map (gfMul p (ys.getD j 0))) (l := List.range xs.length)
    fun j h => by
      rw [Option.isSome_map]
      exact basis_isSome p hx (List.mem_range.1 h) x
  rw [hv]; rfl

/-- Distinct shard indices below 255 have distinct points (R120). -/
theorem points_nodup {is : List Nat} (h : is.Nodup) (hb : ∀ i ∈ is, i < 255) :
    (points is).Nodup := by
  refine List.Nodup.map_on (fun i hi j hj e => ?_) h
  have := congrArg BitVec.toNat e
  rw [point_toNat (hb i hi), point_toNat (hb j hj)] at this
  omega

end Sys2Proof.Machine
end

