-- ==== Sys2Proof/Laws/Memory.lean ====
section
/-! SUPPORT. The laws of a buffer's contents: read after write, and that every operation keeps the canonical form. -/

namespace Sys2Proof.Machine

@[simp] theorem Memory.lookup_nil (i : Nat) : Memory.lookup [] i = none := rfl

theorem Memory.lookup_store (m : Memory) (i j : Nat) (v : Byte) :
    (m.store i v).lookup j = if i = j then some v else m.lookup j := by
  induction m with
  | nil => simp [Memory.store, Memory.lookup, Memory.unlisted]
  | cons c m ih =>
    obtain ⟨a, u⟩ := c
    unfold Memory.store
    by_cases h1 : i < a
    · simp [h1, Memory.lookup]
    · by_cases h2 : i = a
      · subst h2
        by_cases hj : i = j <;> simp [Memory.lookup, hj]
      · by_cases hj : i = j
        · subst hj; simp [h1, h2, Ne.symm h2, Memory.lookup, ih]
        · simp [h1, h2, hj, Memory.lookup, ih]

@[simp] theorem Memory.lookup_store_same (m : Memory) (i : Nat) (v : Byte) :
    (m.store i v).lookup i = some v := by simp [Memory.lookup_store]

theorem Memory.lookup_store_ne (m : Memory) {i j : Nat} (v : Byte) (h : i ≠ j) :
    (m.store i v).lookup j = m.lookup j := by simp [Memory.lookup_store, h]

/-- After writing `vs` from `i` up, entry `j` reads its new byte if it is one of those, else as before. -/
theorem Memory.lookup_storeAll (vs : List Byte) (m : Memory) (i j : Nat) :
    (m.storeAll i vs).lookup j =
      if i ≤ j ∧ j < i + vs.length then vs[j - i]? else m.lookup j := by
  induction vs generalizing m i with
  | nil => simp only [Memory.storeAll, List.length_nil]; rw [if_neg (by omega)]
  | cons v vs ih =>
    simp only [Memory.storeAll, ih, Memory.lookup_store, List.length_cons]
    by_cases h : i = j
    · subst h; simp
    · by_cases h1 : i + 1 ≤ j ∧ j < i + 1 + vs.length
      · rw [if_pos h1, if_pos (by omega), show j - i = (j - (i + 1)) + 1 by omega]; simp
      · rw [if_neg h1, if_neg h, if_neg (by omega)]

theorem Memory.mem_store {m : Memory} {i : Nat} {v : Byte} {c : Host.Cell} (h : c ∈ m.store i v) :
    c = (i, v) ∨ c ∈ m := by
  induction m with
  | nil => simpa [Memory.store] using h
  | cons d m ih =>
    obtain ⟨a, u⟩ := d
    unfold Memory.store at h
    split_ifs at h with h1 h2
    · simpa using h
    · rcases List.mem_cons.1 h with h | h
      · exact .inl h
      · exact .inr (List.mem_cons_of_mem _ h)
    · rcases List.mem_cons.1 h with h | h
      · exact .inr (h ▸ List.mem_cons_self)
      · exact (ih h).imp id (List.mem_cons_of_mem _)

/-- Writing an entry the buffer has keeps the canonical form. -/
theorem Memory.wf_store {m : Memory} (hm : m.wf) {i : Nat} (hi : i < Config.capacity) (v : Byte) :
    (m.store i v).wf := by
  obtain ⟨hs, hb⟩ := hm
  refine ⟨?_, fun c hc => ?_⟩
  · clear hb
    induction m with
    | nil => simp [Memory.store]
    | cons d m ih =>
      obtain ⟨a, u⟩ := d
      rw [List.pairwise_cons] at hs
      unfold Memory.store
      split_ifs with h1 h2
      · refine List.pairwise_cons.2 ⟨fun c hc => ?_, List.pairwise_cons.2 hs⟩
        rcases List.mem_cons.1 hc with rfl | hc
        · exact h1
        · exact h1.trans (hs.1 c hc)
      · subst h2; exact List.pairwise_cons.2 hs
      · refine List.pairwise_cons.2 ⟨fun c hc => ?_, ih hs.2⟩
        rcases Memory.mem_store hc with rfl | hc
        · show a < i; omega
        · exact hs.1 c hc
  · rcases Memory.mem_store hc with rfl | hc
    · exact hi
    · exact hb c hc

/-- Writing a run of entries the buffer has keeps the canonical form. -/
theorem Memory.wf_storeAll {m : Memory} (hm : m.wf) (vs : List Byte) {i : Nat}
    (h : i + vs.length ≤ Config.capacity) : (m.storeAll i vs).wf := by
  induction vs generalizing m i with
  | nil => exact hm
  | cons v vs ih =>
    rw [List.length_cons] at h
    exact ih (Memory.wf_store hm (by omega) v) (by omega)

/-- `Buf(B, i) <- v`, read back. -/
theorem State.readEntry_writeEntry (s : State) (b b' : Buf) (i j : Nat) (v : Byte) :
    (s.writeEntry b i v).readEntry b' j =
      if b = b' ∧ i = j then some v else s.readEntry b' j := by
  unfold State.readEntry State.writeEntry
  by_cases h : b = b'
  · subst h; simp [Memory.lookup_store]
  · simp [State.buf_withBuf, h]

/-- The entries a command writes, read back. -/
theorem State.readEntry_writeEntries (s : State) (b b' : Buf) (vs : List Byte) (j : Nat) :
    (s.writeEntries b vs).readEntry b' j =
      if b = b' ∧ j < vs.length then vs[j]? else s.readEntry b' j := by
  unfold State.readEntry State.writeEntries
  by_cases h : b = b'
  · subst h; simp [Memory.lookup_storeAll]
  · simp [State.buf_withBuf, h]

end Sys2Proof.Machine
end

