-- ==== Sys2Proof/Laws/Commands.lean ====
section
/-! SUPPORT. For each shared operation and each buffer command, one lemma that says every outcome it can have. -/

namespace Sys2Proof.Machine

theorem commandDone_eq (s : State) : commandDone s = .next { s with statusCode := 0 } := rfl

theorem commandFail_eq (c : StatusCode) (s : State) :
    commandFail c s = .next { s with statusCode := c.toByte, statusSticky := true } := rfl

theorem resultDone_eq (r : Byte) (s : State) :
    resultDone r s = .next { s with result := r, statusCode := 0 } := rfl

/-- `configure` answers one of two next states (R121 to R123). -/
theorem configure_cases (k : Byte) (n : Nat) (s : State) :
    (legalConfig k.toNat n ∧ configure k n s = commandDone (s.setConfig k (BitVec.ofNat 8 n))) ∨
    (¬ legalConfig k.toNat n ∧ configure k n s = commandFail .configurationError s) := by
  unfold configure
  by_cases h : legalConfig k.toNat n
  · exact .inl ⟨h, if_pos h⟩
  · exact .inr ⟨h, if_neg h⟩

/-- The encoders' checks end in one of four ways (R142). -/
theorem withMessage_cases (s : State) (body : List Byte → Answer) :
    (s.configValid = false ∧ withMessage s body = commandFail .notConfigured s) ∨
    (s.configValid = true ∧ s.msgLen ≠ s.configK ∧
      withMessage s body = commandFail .invalidInputLength s) ∨
    (s.configValid = true ∧ s.msgLen = s.configK ∧ ∃ f,
      s.gather .msg (List.range s.configK.toNat) = .error f ∧ withMessage s body = .fault f) ∨
    (s.configValid = true ∧ s.msgLen = s.configK ∧ ∃ m,
      s.gather .msg (List.range s.configK.toNat) = .ok m ∧ withMessage s body = body m) := by
  unfold withMessage
  cases hv : s.configValid with
  | false => exact .inl ⟨rfl, by simp⟩
  | true =>
    by_cases hl : s.msgLen = s.configK
    · cases hg : s.gather .msg (List.range s.configK.toNat) with
      | error f => exact .inr (.inr (.inl ⟨rfl, hl, f, rfl, by simp [hl]⟩))
      | ok m => exact .inr (.inr (.inr ⟨rfl, hl, m, rfl, by simp [hl]⟩))
    · exact .inr (.inl ⟨rfl, hl, by simp [hl]⟩)

/-- With at most 255 data shards a value-form codeword meets no division by zero: it has its N symbols, each
the message symbol or the interpolation (R143). -/
theorem valueCodeword_eq (p : BitVec 9) {k : Nat} (hk : k ≤ 255) (n : Nat) (m : List Byte) :
    ∃ c, valueCodeword p k n m = some c ∧
      (List.range n).map (fun i => if i < k then some (m.getD i 0)
        else interp p (points (List.range k)) m (point i)) = c.map some := by
  refine allSome_map_of_forall fun i _ => ?_
  split_ifs
  · rfl
  · exact interp_isSome p (points_nodup List.nodup_range fun i hi => by
      have := List.mem_range.1 hi; omega) m _

/-- ENCV ends in one of four ways: two failures, a fault, or the codeword (R143). -/
theorem execEncv_cases (s : State) :
    (s.configValid = false ∧ execEncv s = commandFail .notConfigured s) ∨
    (s.configValid = true ∧ s.msgLen ≠ s.configK ∧
      execEncv s = commandFail .invalidInputLength s) ∨
    (s.configValid = true ∧ s.msgLen = s.configK ∧ ∃ f,
      s.gather .msg (List.range s.configK.toNat) = .error f ∧ execEncv s = .fault f) ∨
    (s.configValid = true ∧ s.msgLen = s.configK ∧ ∃ m c,
      s.gather .msg (List.range s.configK.toNat) = .ok m ∧
      (List.range s.configN.toNat).map (fun i => if i < s.configK.toNat then some (m.getD i 0)
        else interp Config.gfPoly (points (List.range s.configK.toNat)) m (point i)) = c.map some ∧
      execEncv s = codewordDone c s) := by
  unfold execEncv
  rcases withMessage_cases s fun m =>
      match valueCodeword Config.gfPoly s.configK.toNat s.configN.toNat m with
      | none => commandFail .divisionByZero s
      | some c => codewordDone c s with h | h | h | ⟨hv, hl, m, hg, h⟩
  · exact .inl h
  · exact .inr (.inl h)
  · exact .inr (.inr (.inl h))
  · obtain ⟨c, hc, he⟩ := valueCodeword_eq Config.gfPoly
      (k := s.configK.toNat) (by have := s.configK.isLt; omega) s.configN.toNat m
    exact .inr (.inr (.inr ⟨hv, hl, m, c, hg, he, h.trans (by rw [hc])⟩))

/-- ENCC ends in one of four ways: two failures, a fault, or the codeword (R144). -/
theorem execEncc_cases (s : State) :
    (s.configValid = false ∧ execEncc s = commandFail .notConfigured s) ∨
    (s.configValid = true ∧ s.msgLen ≠ s.configK ∧
      execEncc s = commandFail .invalidInputLength s) ∨
    (s.configValid = true ∧ s.msgLen = s.configK ∧ ∃ f,
      s.gather .msg (List.range s.configK.toNat) = .error f ∧ execEncc s = .fault f) ∨
    (s.configValid = true ∧ s.msgLen = s.configK ∧ ∃ m,
      s.gather .msg (List.range s.configK.toNat) = .ok m ∧
      execEncc s =
        codewordDone (coeffCodeword Config.gfPoly s.configK.toNat s.configN.toNat m) s) :=
  withMessage_cases s _

/-- Decoding from distinct positions below 255 meets no division by zero: it writes the K interpolated symbols
and ends (R160, R161). -/
theorem decodeFrom_eq {is : List Nat} (hn : is.Nodup) (hb : ∀ i ∈ is, i < 255) (ys : List Byte)
    (s : State) :
    ∃ r, (List.range s.configK.toNat).map
        (fun i => interp Config.gfPoly (points is) ys (point i)) = r.map some ∧
      decodeFrom is ys s = commandDone ((s.writeEntries .msg r).setMsgLen s.configK) := by
  obtain ⟨r, hr, he⟩ := allSome_map_of_forall
    (f := fun i => interp Config.gfPoly (points is) ys (point i))
    (l := List.range s.configK.toNat) fun i _ => interp_isSome _ (points_nodup hn hb) ys _
  exact ⟨r, he, by rw [decodeFrom, decodedMessage, hr]⟩

/-- What DEC selects are entries of the list. -/
theorem selectEntries_lt {k : Nat} {idx : List Nat} {e : Nat} (h : e ∈ selectEntries k idx) :
    e < idx.length := by
  have := List.mem_of_mem_take h
  rw [List.mem_insertionSort] at this
  exact List.mem_range.1 this

/-- DEC selects no entry twice. -/
theorem selectEntries_nodup (k : Nat) (idx : List Nat) : (selectEntries k idx).Nodup := by
  refine List.Nodup.sublist (List.take_sublist _ _) ?_
  exact (List.perm_insertionSort _ _).nodup_iff.2 List.nodup_range

/-- From distinct indices, DEC's selected indices are distinct. -/
theorem selectedIndices_nodup {idx : List Nat} (h : idx.Nodup) (k : Nat) :
    ((selectEntries k idx).map fun e => idx.getD e 0).Nodup := by
  refine List.Nodup.map_on (fun e he e' he' q => ?_) (selectEntries_nodup k idx)
  have h1 := selectEntries_lt he
  have h2 := selectEntries_lt he'
  rw [List.getD_eq_getElem _ _ h1, List.getD_eq_getElem _ _ h2] at q
  exact (List.Nodup.getElem_inj_iff h).1 q

/-- DEC ends in one of six ways: three failures, two faults, or the message (R160). -/
theorem execDec_cases (s : State) :
    (s.configValid = false ∧ execDec s = commandFail .notConfigured s) ∨
    (s.configValid = true ∧ s.shCnt.toNat < s.configK.toNat ∧
      execDec s = commandFail .insufficientShards s) ∨
    (s.configValid = true ∧ s.configK.toNat ≤ s.shCnt.toNat ∧
      ((∃ f, s.gather .shIdx (List.range s.shCnt.toNat) = .error f ∧ execDec s = .fault f) ∨
      ∃ raw, s.gather .shIdx (List.range s.shCnt.toNat) = .ok raw ∧
        (((∃ x ∈ raw, s.configN.toNat ≤ x.toNat) ∨ ¬ (raw.map BitVec.toNat).Nodup) ∧
            execDec s = commandFail .duplicateOrInvalidIndex s ∨
          (∀ x ∈ raw, x.toNat < s.configN.toNat) ∧ (raw.map BitVec.toNat).Nodup ∧
            ((∃ f, s.gather .shVal (selectEntries s.configK.toNat (raw.map BitVec.toNat)) = .error f ∧
              execDec s = .fault f) ∨
            ∃ ys, s.gather .shVal (selectEntries s.configK.toNat (raw.map BitVec.toNat)) = .ok ys ∧
              execDec s = decodeFrom ((selectEntries s.configK.toNat (raw.map BitVec.toNat)).map
                fun e => (raw.map BitVec.toNat).getD e 0) ys s)))) := by
  unfold execDec
  cases hv : s.configValid with
  | false => exact .inl ⟨rfl, by simp⟩
  | true =>
    by_cases hc : s.shCnt.toNat < s.configK.toNat
    · exact .inr (.inl ⟨rfl, hc, by simp [hc]⟩)
    refine .inr (.inr ⟨rfl, by omega, ?_⟩)
    simp only [if_neg hc, Bool.true_eq_false, if_false]
    cases hg : s.gather .shIdx (List.range s.shCnt.toNat) with
    | error f => exact .inl ⟨f, rfl, rfl⟩
    | ok raw =>
      refine .inr ⟨raw, rfl, ?_⟩
      by_cases ha : ∃ x ∈ raw, s.configN.toNat ≤ x.toNat
      · refine .inl ⟨.inl ha, if_pos ?_⟩
        simpa using ha
      by_cases hd : (raw.map BitVec.toNat).Nodup
      · refine .inr ⟨by simpa using ha, hd, ?_⟩
        have ha' : ((raw.map BitVec.toNat).any fun i => s.configN.toNat ≤ i) = false := by
          simpa using ha
        cases hs : s.gather .shVal (selectEntries s.configK.toNat (raw.map BitVec.toNat)) with
        | error f => exact .inl ⟨f, rfl, by simp only [ha', hd, hs]; simp⟩
        | ok ys => exact .inr ⟨ys, rfl, by simp only [ha', hd, hs]; simp⟩
      · refine .inl ⟨.inr hd, ?_⟩
        simp only [hd, not_false_iff, if_true, ite_self]

/-- DECL ends in one of four ways: two failures, a fault, or the message (R161). -/
theorem execDecl_cases (s : State) :
    (s.configValid = false ∧ execDecl s = commandFail .notConfigured s) ∨
    (s.configValid = true ∧ s.cwLen ≠ s.configN ∧
      execDecl s = commandFail .invalidInputLength s) ∨
    (s.configValid = true ∧ s.cwLen = s.configN ∧
      ((∃ f, s.gather .cw (lastPositions s.configK.toNat s.configN.toNat) = .error f ∧
        execDecl s = .fault f) ∨
      ∃ ys, s.gather .cw (lastPositions s.configK.toNat s.configN.toNat) = .ok ys ∧
        execDecl s = decodeFrom (lastPositions s.configK.toNat s.configN.toNat) ys s)) := by
  unfold execDecl
  cases hv : s.configValid with
  | false => exact .inl ⟨rfl, by simp⟩
  | true =>
    by_cases hl : s.cwLen = s.configN
    · refine .inr (.inr ⟨rfl, hl, ?_⟩)
      cases hg : s.gather .cw (lastPositions s.configK.toNat s.configN.toNat) with
      | error f => exact .inl ⟨f, rfl, by simp [hl, hg]⟩
      | ok ys => exact .inr ⟨ys, rfl, by simp [hl, hg]⟩
    · exact .inr (.inl ⟨rfl, hl, by simp [hl]⟩)

/-- DECL's positions are distinct. -/
theorem lastPositions_nodup (k n : Nat) : (lastPositions k n).Nodup := List.nodup_range'

/-- DECL's positions are entries of the buffer. -/
theorem lastPositions_lt {k n i : Nat} (hk : k ≤ 255) (hn : n ≤ 255) (h : i ∈ lastPositions k n) :
    i < 255 := by
  obtain ⟨j, hj, rfl⟩ := List.mem_range'.1 h
  omega

end Sys2Proof.Machine
end

