-- ==== Sys2Proof/Laws/Encoding.lean ====
section
/-! SUPPORT. Where each format's word carries its opcode and operands (R82): the bits outside the operands, and each field read back. -/

namespace Sys2Proof

theorem encodeZ_mask (op : Byte) : encodeZ op &&& 0xFFFFFFFF = op.setWidth 32 := by
  ext i hi
  interval_cases i <;> simp [encodeZ]

theorem encodePair_mask (op lo hi : Byte) : encodePair op lo hi &&& 0xFF0000FF = op.setWidth 32 := by
  ext i hi
  interval_cases i <;> simp [encodePair]

theorem encodePw_mask (op a : Byte) (e : BitVec 16) : encodePw op a e &&& 0x000000FF = op.setWidth 32 := by
  ext i hi
  interval_cases i <;> simp [encodePw]

theorem encodeIx_mask (op idx : Byte) : encodeIx op idx &&& 0xFFFF00FF = op.setWidth 32 := by
  ext i hi
  interval_cases i <;> simp [encodeIx]

/-- Format Z's fields, read back. -/
theorem encodeZ_fields (op : Byte) :
    (encodeZ op).extractLsb' 0 8 = op ∧ encodeZ op >>> 8 = 0 := by
  constructor
  · ext i hi; interval_cases i <;> simp [encodeZ]
  · ext i hi; simp [encodeZ]

/-- The fields of formats R2 and CF, read back. -/
theorem encodePair_fields (op lo hi : Byte) :
    (encodePair op lo hi).extractLsb' 0 8 = op ∧ (encodePair op lo hi).extractLsb' 8 8 = lo ∧
      (encodePair op lo hi).extractLsb' 16 8 = hi ∧ encodePair op lo hi >>> 24 = 0 := by
  refine ⟨?_, ?_, ?_, ?_⟩ <;> (ext i hi; interval_cases i <;> simp [encodePair])

/-- Format PW's fields, read back. -/
theorem encodePw_fields (op a : Byte) (e : BitVec 16) :
    (encodePw op a e).extractLsb' 0 8 = op ∧ (encodePw op a e).extractLsb' 8 8 = a ∧
      (encodePw op a e).extractLsb' 16 16 = e := by
  refine ⟨?_, ?_, ?_⟩ <;> (ext i hi; interval_cases i <;> simp [encodePw])

/-- Format IX's fields, read back. -/
theorem encodeIx_fields (op idx : Byte) :
    (encodeIx op idx).extractLsb' 0 8 = op ∧ (encodeIx op idx).extractLsb' 8 8 = idx ∧
      encodeIx op idx >>> 16 = 0 := by
  refine ⟨?_, ?_, ?_⟩ <;> (ext i hi; interval_cases i <;> simp [encodeIx])

/-- A word whose bits from `n` up are shifted out to zero has none of them set. -/
theorem bit_of_shift_zero {w : Word} {n i : Nat} (h : w >>> n = 0) (hi : n ≤ i) :
    w.getLsbD i = false := by
  have := congrArg (fun x => x.getLsbD (i - n)) h
  simpa [show n + (i - n) = i by omega] using this

/-- A word of format Z is made of its opcode. -/
theorem encodeZ_of_fields {w : Word} (h : w >>> 8 = 0) : encodeZ (w.extractLsb' 0 8) = w := by
  apply BitVec.eq_of_getLsbD_eq
  intro i hi
  by_cases h8 : 8 ≤ i
  · rw [bit_of_shift_zero h h8]; simp [encodeZ]; omega
  · interval_cases i <;> simp [encodeZ] at *

/-- A word of format R2 or CF is made of its opcode and two operands. -/
theorem encodePair_of_fields {w : Word} (h : w >>> 24 = 0) :
    encodePair (w.extractLsb' 0 8) (w.extractLsb' 8 8) (w.extractLsb' 16 8) = w := by
  apply BitVec.eq_of_getLsbD_eq
  intro i hi
  by_cases h8 : 24 ≤ i
  · rw [bit_of_shift_zero h h8]; interval_cases i <;> simp [encodePair]
  · interval_cases i <;> simp [encodePair] at *

/-- A word of format PW is made of its opcode, base and exponent. -/
theorem encodePw_of_fields (w : Word) :
    encodePw (w.extractLsb' 0 8) (w.extractLsb' 8 8) (w.extractLsb' 16 16) = w := by
  ext i hi
  interval_cases i <;> simp [encodePw]

/-- A word of format IX is made of its opcode and index. -/
theorem encodeIx_of_fields {w : Word} (h : w >>> 16 = 0) :
    encodeIx (w.extractLsb' 0 8) (w.extractLsb' 8 8) = w := by
  apply BitVec.eq_of_getLsbD_eq
  intro i hi
  by_cases h8 : 16 ≤ i
  · rw [bit_of_shift_zero h h8]; interval_cases i <;> simp [encodeIx]
  · interval_cases i <;> simp [encodeIx] at *

/-- The opcode map names each mnemonic by its own opcode (R84, R86). -/
theorem find_opcode (x : Mnemonic) :
    Mnemonic.all.find? (fun y => y.opcode == x.opcode) = some x := by
  cases x <;> decide

/-- What decoding a word to a command says of the word (R85, R87). -/
theorem decode_eq_ok {w : Word} {i : Instr} (h : decode w = .ok i) :
    ∃ x : Mnemonic, x.opcode = w.extractLsb' 0 8 ∧ x.legal w ∧
      i = x.command (w.extractLsb' 8 8) (w.extractLsb' 16 8) (w.extractLsb' 16 16) := by
  unfold decode at h
  cases hf : Mnemonic.all.find? fun x => x.opcode == w.extractLsb' 0 8 with
  | none => rw [hf] at h; cases h
  | some x =>
    rw [hf] at h
    dsimp only at h
    by_cases hl : x.legal w
    · rw [if_pos hl] at h
      injection h with h
      exact ⟨x, by simpa using List.find?_some hf, hl, h.symm⟩
    · rw [if_neg hl] at h; cases h

/-- A word legal for a mnemonic has its opcode (R85). -/
theorem opcode_of_legal {x : Mnemonic} {w : Word} (h : x.legal w) :
    x.opcode = w.extractLsb' 0 8 := by
  have hm : ∀ i < 8, x.format.mask.getLsbD i = true := by cases x <;> decide
  apply BitVec.eq_of_getLsbD_eq
  intro i hi
  have := congrArg (fun v => v.getLsbD i) h
  simp only [BitVec.getLsbD_and, hm i hi, Bool.and_true, Mnemonic.matchValue] at this
  rw [BitVec.getLsbD_setWidth, decide_eq_true (show i < 32 by omega), Bool.true_and] at this
  rw [← this]; simp [hi]

/-- Every word legal for a mnemonic decodes, to that mnemonic's command (R85, R87). -/
theorem decode_of_legal {x : Mnemonic} {w : Word} (h : x.legal w) :
    decode w =
      .ok (x.command (w.extractLsb' 8 8) (w.extractLsb' 16 8) (w.extractLsb' 16 16)) := by
  unfold decode
  rw [← opcode_of_legal h, find_opcode]
  exact if_pos h

theorem fitsByte_toNat (a : Byte) : fitsByte a.toNat = true := by
  simpa [fitsByte] using a.isLt

theorem fitsExponent_toNat (e : BitVec 16) : fitsExponent e.toNat = true := by
  simpa [fitsExponent] using e.isLt

end Sys2Proof
end

