-- ==== Sys2Proof/Laws/Exec.lean ====
section
/-! SUPPORT. Once for all commands: what `exec` can answer, and which outputs a completed command writes. -/

namespace Sys2Proof.Machine

/-- The outputs of a completed command: `Output s i t` says that `t` is `s` with what command `i` writes on
success, before STATUS.CODE is set (R22, R26, R203). -/
inductive Output (s : State) : Instr → State → Prop
  | nop : Output s .nop s
  | clrs : Output s .clrs (s.setStatus s.statusCode false)
  | result (i : Instr) (r : Byte)
      (h : i.mnemonic ∈ [.gadd, .gsub, .gmul, .gdiv, .gpow, .evpt]) : Output s i (s.setResult r)
  | config (i : Instr) (k n : Byte) (h : i.mnemonic ∈ [.cfge, .cfgd])
      (hk : 1 ≤ k.toNat) (hn : k.toNat ≤ n.toNat) : Output s i (s.setConfig k n)
  | codeword (i : Instr) (c : List Byte) (h : i.mnemonic ∈ [.encv, .encc])
      (hv : s.configValid = true) (hc : c.length = s.configN.toNat) :
      Output s i ((s.writeEntries .cw c).setCwLen s.configN)
  | message (i : Instr) (r : List Byte) (h : i.mnemonic ∈ [.dec, .decl])
      (hv : s.configValid = true) (hr : r.length = s.configK.toNat) :
      Output s i ((s.writeEntries .msg r).setMsgLen s.configK)

/-- What a command can answer: a failure, the fault of an unwritten entry, or its outputs and `done`. -/
abbrev Answers (i : Instr) (s : State) (a : Answer) : Prop :=
  (∃ c, c ≠ .ok ∧ a = commandFail c s) ∨
  (∃ b j, i.mnemonic ∈ [.encv, .encc, .dec, .decl] ∧ s.readEntry b j = none ∧
    a = .fault (.unwrittenRead b j)) ∨
  ∃ t, Output s i t ∧ a = commandDone t

/-- The fault of gathering is an unwritten entry. -/
theorem gather_fault {s : State} {b : Buf} {is : List Nat} {f : Fault}
    (h : s.gather b is = .error f) : ∃ j, s.readEntry b j = none ∧ f = .unwrittenRead b j := by
  obtain ⟨l, i, r, -, -, hi, hf⟩ := (State.gather_eq_error _ _ _ _).1 h
  exact ⟨i, hi, hf⟩

theorem answers_configure {i : Instr} (h : i.mnemonic ∈ [.cfge, .cfgd]) (k : Byte) (n : Nat)
    (s : State) : Answers i s (configure k n s) := by
  rcases configure_cases k n s with ⟨⟨h1, h2, h3⟩, e⟩ | ⟨-, e⟩
  · refine .inr (.inr ⟨_, .config i k _ h h1 ?_, e⟩)
    rw [BitVec.toNat_ofNat, Nat.mod_eq_of_lt (by unfold Config.maxPoints at h3; omega)]
    exact h2
  · exact .inl ⟨_, by simp, e⟩

theorem answers_encv (s : State) : Answers .encv s (execEncv s) := by
  rcases execEncv_cases s with ⟨-, e⟩ | ⟨-, -, e⟩ | ⟨-, -, f, hf, e⟩ | ⟨hv, -, m, c, -, hc, e⟩
  · exact .inl ⟨_, by simp, e⟩
  · exact .inl ⟨_, by simp, e⟩
  · obtain ⟨j, hj, rfl⟩ := gather_fault hf
    exact .inr (.inl ⟨_, j, by simp [Instr.mnemonic], hj, e⟩)
  · refine .inr (.inr ⟨_, .codeword .encv c (by simp [Instr.mnemonic]) hv ?_, e⟩)
    simpa using (congrArg List.length hc).symm

theorem answers_encc (s : State) : Answers .encc s (execEncc s) := by
  rcases execEncc_cases s with ⟨-, e⟩ | ⟨-, -, e⟩ | ⟨-, -, f, hf, e⟩ | ⟨hv, -, m, -, e⟩
  · exact .inl ⟨_, by simp, e⟩
  · exact .inl ⟨_, by simp, e⟩
  · obtain ⟨j, hj, rfl⟩ := gather_fault hf
    exact .inr (.inl ⟨_, j, by simp [Instr.mnemonic], hj, e⟩)
  · exact .inr (.inr ⟨_, .codeword .encc _ (by simp [Instr.mnemonic]) hv
      (by simp [coeffCodeword]), e⟩)

theorem answers_decodeFrom {i : Instr} (h : i.mnemonic ∈ [.dec, .decl]) {s : State}
    (hv : s.configValid = true) {is : List Nat} (hn : is.Nodup) (hb : ∀ j ∈ is, j < 255)
    (ys : List Byte) : Answers i s (decodeFrom is ys s) := by
  obtain ⟨r, hr, e⟩ := decodeFrom_eq hn hb ys s
  exact .inr (.inr ⟨_, .message i r h hv (by simpa using (congrArg List.length hr).symm), e⟩)

theorem answers_dec (s : State) : Answers .dec s (execDec s) := by
  rcases execDec_cases s with ⟨-, e⟩ | ⟨-, -, e⟩ | ⟨hv, -, ⟨f, hf, e⟩ | ⟨raw, -, ⟨-, e⟩ |
    ⟨hb, hn, ⟨f, hf, e⟩ | ⟨ys, -, e⟩⟩⟩⟩
  · exact .inl ⟨_, by simp, e⟩
  · exact .inl ⟨_, by simp, e⟩
  · obtain ⟨j, hj, rfl⟩ := gather_fault hf
    exact .inr (.inl ⟨_, j, by simp [Instr.mnemonic], hj, e⟩)
  · exact .inl ⟨_, by simp, e⟩
  · obtain ⟨j, hj, rfl⟩ := gather_fault hf
    exact .inr (.inl ⟨_, j, by simp [Instr.mnemonic], hj, e⟩)
  · rw [e]
    refine answers_decodeFrom (by simp [Instr.mnemonic]) hv (selectedIndices_nodup hn _) ?_ ys
    intro j hj
    obtain ⟨l, hl, rfl⟩ := List.mem_map.1 hj
    have hl' := selectEntries_lt hl
    rw [List.getD_eq_getElem _ _ hl', List.getElem_map]
    have h1 := hb _ (List.getElem_mem (by simpa using hl'))
    have h2 := s.configN.isLt
    omega

theorem answers_decl (s : State) : Answers .decl s (execDecl s) := by
  rcases execDecl_cases s with ⟨-, e⟩ | ⟨-, -, e⟩ | ⟨hv, -, ⟨f, hf, e⟩ | ⟨ys, -, e⟩⟩
  · exact .inl ⟨_, by simp, e⟩
  · exact .inl ⟨_, by simp, e⟩
  · obtain ⟨j, hj, rfl⟩ := gather_fault hf
    exact .inr (.inl ⟨_, j, by simp [Instr.mnemonic], hj, e⟩)
  · rw [e]
    have hk := s.configK.isLt
    have hn := s.configN.isLt
    exact answers_decodeFrom (by simp [Instr.mnemonic]) hv (lastPositions_nodup _ _)
      (fun j hj => lastPositions_lt (by omega) (by omega) hj) ys

/-- Every command answers in one of the three ways (R90, R203). -/
theorem exec_answers (i : Instr) (s : State) : Answers i s (exec i s) := by
  cases i with
  | nop => exact .inr (.inr ⟨_, .nop, rfl⟩)
  | clrs => exact .inr (.inr ⟨_, .clrs, rfl⟩)
  | gadd a b => exact .inr (.inr ⟨_, .result _ _ (by simp [Instr.mnemonic]), rfl⟩)
  | gsub a b => exact .inr (.inr ⟨_, .result _ _ (by simp [Instr.mnemonic]), rfl⟩)
  | gmul a b => exact .inr (.inr ⟨_, .result _ _ (by simp [Instr.mnemonic]), rfl⟩)
  | gpow a e => exact .inr (.inr ⟨_, .result _ _ (by simp [Instr.mnemonic]), rfl⟩)
  | gdiv a b =>
    show Answers _ s (execGdiv a b s)
    unfold execGdiv
    split
    · exact .inl ⟨_, by simp, rfl⟩
    · exact .inr (.inr ⟨_, .result _ _ (by simp [Instr.mnemonic]), rfl⟩)
  | cfge k m => exact answers_configure (by simp [Instr.mnemonic]) _ _ s
  | cfgd k m => exact answers_configure (by simp [Instr.mnemonic]) _ _ s
  | evpt idx =>
    show Answers _ s (execEvpt idx s)
    unfold execEvpt
    split_ifs
    · exact .inl ⟨_, by simp, rfl⟩
    · exact .inl ⟨_, by simp, rfl⟩
    · exact .inr (.inr ⟨_, .result _ _ (by simp [Instr.mnemonic]), rfl⟩)
  | encv => exact answers_encv s
  | encc => exact answers_encc s
  | dec => exact answers_dec s
  | decl => exact answers_decl s

end Sys2Proof.Machine
end

