-- ==== Sys2Proof/Laws/PerInstr.lean ====
section
/-! SUPPORT. One lemma per command: its operands are in range (R83) and its word is legal for its mnemonic (R85). -/

namespace Sys2Proof.Laws.Legality

/-- The command is well formed, and its word matches its mnemonic under the format's mask. -/
def Statement (i : Instr) : Prop := i.wellFormed = true ∧ i.mnemonic.legal (encode i)

theorem nop : Statement .nop := ⟨rfl, encodeZ_mask _⟩

theorem gadd (a b : Byte) : Statement (.gadd a b) :=
  ⟨by simp [Instr.wellFormed, Instr.toAsm, AsmCommand.wellFormed, fitsByte_toNat], encodePair_mask _ _ _⟩

theorem gsub (a b : Byte) : Statement (.gsub a b) :=
  ⟨by simp [Instr.wellFormed, Instr.toAsm, AsmCommand.wellFormed, fitsByte_toNat], encodePair_mask _ _ _⟩

theorem gmul (a b : Byte) : Statement (.gmul a b) :=
  ⟨by simp [Instr.wellFormed, Instr.toAsm, AsmCommand.wellFormed, fitsByte_toNat], encodePair_mask _ _ _⟩

theorem gdiv (a b : Byte) : Statement (.gdiv a b) :=
  ⟨by simp [Instr.wellFormed, Instr.toAsm, AsmCommand.wellFormed, fitsByte_toNat], encodePair_mask _ _ _⟩

theorem gpow (a : Byte) (e : BitVec 16) : Statement (.gpow a e) :=
  ⟨by simp [Instr.wellFormed, Instr.toAsm, AsmCommand.wellFormed, fitsByte_toNat, fitsExponent_toNat],
    encodePw_mask _ _ _⟩

theorem clrs : Statement .clrs := ⟨rfl, encodeZ_mask _⟩

theorem cfge (k m : Byte) : Statement (.cfge k m) :=
  ⟨by simp [Instr.wellFormed, Instr.toAsm, AsmCommand.wellFormed, fitsByte_toNat], encodePair_mask _ _ _⟩

theorem cfgd (k m : Byte) : Statement (.cfgd k m) :=
  ⟨by simp [Instr.wellFormed, Instr.toAsm, AsmCommand.wellFormed, fitsByte_toNat], encodePair_mask _ _ _⟩

theorem evpt (idx : Byte) : Statement (.evpt idx) :=
  ⟨by simp [Instr.wellFormed, Instr.toAsm, AsmCommand.wellFormed, fitsByte_toNat], encodeIx_mask _ _⟩

theorem encv : Statement .encv := ⟨rfl, encodeZ_mask _⟩

theorem encc : Statement .encc := ⟨rfl, encodeZ_mask _⟩

theorem dec : Statement .dec := ⟨rfl, encodeZ_mask _⟩

theorem decl : Statement .decl := ⟨rfl, encodeZ_mask _⟩

end Sys2Proof.Laws.Legality
end

