-- ==== Sys2Proof/Laws/Window.lean ====
section
/-! SUPPORT. What a host access and a step can answer, once for all of them. -/

namespace Sys2Proof.Machine

/-- An entry found at an offset is one the buffer has (R52). -/
theorem entryAt_lt {off : Offset} {b : Buf} {i : Nat} (h : entryAt off = some (b, i)) :
    i < Config.capacity := by
  unfold entryAt at h
  split_ifs at h with hi
  obtain ⟨b', -, e⟩ := Option.map_eq_some_iff.1 h
  injection e with e1 e2
  exact e2 ▸ hi

/-- A host read answers a register's word, an entry's byte, the fault of an unwritten entry, or a BusFault
(R53 to R57, R59). -/
theorem hostRead_cases (off : Offset) (n : Nat) (s : State) :
    (∃ r w, n = 4 ∧ regAt off = some r ∧ s.readReg r = some w ∧
      hostRead off n s = .next (s.pushRead w)) ∨
    (∃ b i v, n = 1 ∧ entryAt off = some (b, i) ∧ s.readEntry b i = some v ∧
      hostRead off n s = .next (s.pushRead (byteWord v))) ∨
    (∃ b i, n = 1 ∧ entryAt off = some (b, i) ∧ s.readEntry b i = none ∧
      hostRead off n s = .fault (.unwrittenRead b i)) ∨
    ((n = 4 → ∀ r, regAt off = some r → r = .cmd) ∧ (n = 1 → entryAt off = none) ∧
      hostRead off n s = .fault (.busFault off)) := by
  unfold hostRead
  by_cases h4 : n = 4
  · subst h4
    rw [if_pos rfl]
    cases hr : regAt off with
    | none => exact .inr (.inr (.inr ⟨by simp, by simp, rfl⟩))
    | some r =>
      cases hw : s.readReg r with
      | none =>
        refine .inr (.inr (.inr ⟨?_, by simp, by simp only [hw]⟩))
        rintro - r' ⟨⟩
        cases r <;> first | rfl | exact absurd hw (by simp [State.readReg])
      | some w => exact .inl ⟨r, w, rfl, rfl, hw, by simp only [hw]⟩
  rw [if_neg h4]
  by_cases h1 : n = 1
  · subst h1
    rw [if_pos rfl]
    rcases he : entryAt off with - | ⟨b, i⟩
    · exact .inr (.inr (.inr ⟨by simp, by simp, rfl⟩))
    · cases hv : s.readEntry b i with
      | none => exact .inr (.inr (.inl ⟨b, i, rfl, rfl, hv, by simp only [hv]⟩))
      | some v => exact .inr (.inl ⟨b, i, v, rfl, rfl, hv, by simp only [hv]⟩)
  · rw [if_neg h1]
    exact .inr (.inr (.inr ⟨fun h => absurd h h4, fun h => absurd h h1, rfl⟩))

/-- A host write is a command, a length write, an entry write, or a BusFault (R53 to R57, R59). -/
theorem hostWrite_cases (off : Offset) (n : Nat) (v : Word) (s : State) :
    (n = 4 ∧ regAt off = some .cmd ∧ hostWrite off n v s = execWord v s) ∨
    (∃ r t, n = 4 ∧ regAt off = some r ∧ s.writeLength r v = some t ∧
      hostWrite off n v s = .next t) ∨
    (∃ b i, n = 1 ∧ entryAt off = some (b, i) ∧
      hostWrite off n v s = .next (s.writeEntry b i (lowByte v))) ∨
    ((n = 4 → ∀ r, regAt off = some r → r = .status ∨ r = .result ∨ r = .config) ∧
      (n = 1 → entryAt off = none) ∧ hostWrite off n v s = .fault (.busFault off)) := by
  unfold hostWrite
  by_cases h4 : n = 4
  · subst h4
    rw [if_pos rfl]
    cases hr : regAt off with
    | none => exact .inr (.inr (.inr ⟨by simp, by simp, rfl⟩))
    | some r =>
      cases r with
      | cmd => exact .inl ⟨rfl, rfl, rfl⟩
      | status => exact .inr (.inr (.inr ⟨by simp, by simp, rfl⟩))
      | result => exact .inr (.inr (.inr ⟨by simp, by simp, rfl⟩))
      | config => exact .inr (.inr (.inr ⟨by simp, by simp, rfl⟩))
      | msgLen => exact .inr (.inl ⟨_, _, rfl, rfl, rfl, rfl⟩)
      | cwLen => exact .inr (.inl ⟨_, _, rfl, rfl, rfl, rfl⟩)
      | shCnt => exact .inr (.inl ⟨_, _, rfl, rfl, rfl, rfl⟩)
  rw [if_neg h4]
  by_cases h1 : n = 1
  · subst h1
    rw [if_pos rfl]
    rcases he : entryAt off with - | ⟨b, i⟩
    · exact .inr (.inr (.inr ⟨by simp, by simp, rfl⟩))
    · exact .inr (.inr (.inl ⟨b, i, rfl, rfl, rfl⟩))
  · rw [if_neg h1]
    exact .inr (.inr (.inr ⟨fun h => absurd h h4, fun h => absurd h h1, rfl⟩))

/-- What a word written to CMD answers: the command it decodes to, or IllegalCommand (R86, R90). -/
theorem execWord_cases (w : Word) (s : State) :
    (∃ i, decode w = .ok i ∧ execWord w s = exec i s) ∨
    (∃ e, decode w = .error e ∧ execWord w s = commandFail .illegalCommand s) := by
  unfold execWord
  cases h : decode w with
  | ok i => exact .inl ⟨i, rfl, rfl⟩
  | error e => exact .inr ⟨e, rfl, rfl⟩

/-- Where the window stands, its size written as a number (R51). -/
theorem windowOffset_eq (a : Nat) :
    windowOffset a = if Config.unitBase ≤ a ∧ a < Config.unitBase + 4096 then
      some (BitVec.ofNat 12 (a - Config.unitBase)) else none := rfl

/-- A host address that lies `off` above UNIT_BASE is the window offset `off` (R51). -/
theorem Target.resolve_inside (off : Offset) :
    (Target.address (Config.unitBase + off.toNat)).resolve = .ok off := by
  have hlt := off.isLt
  have h : windowOffset (Config.unitBase + off.toNat) = some off := by
    rw [windowOffset_eq, if_pos (by omega), Nat.add_sub_cancel_left, BitVec.ofNat_toNat, BitVec.setWidth_eq]
  simp only [Target.resolve, h]

/-- A host address outside the window is refused by name (R51). -/
theorem Target.resolve_outside {a : Nat} (h : a < Config.unitBase ∨ Config.unitBase + 0x1000 ≤ a) :
    (Target.address a).resolve = .error (.outsideWindow a) := by
  have hn : windowOffset a = none := by rw [windowOffset_eq, if_neg (by omega)]
  simp only [Target.resolve, hn]

/-- What a host event can turn a state into: the reset state, a value recorded as read, a length or an entry
written, or what a command written to CMD makes of it (R59, R60, R231). -/
theorem performEvent_next {e : HostEvent} {s t : State} (h : performEvent e s = .next t) :
    (e = .reset ∧ t = s.resetUnit) ∨ (∃ w, t = s.pushRead w) ∨
    (∃ v, t = s.setMsgLen v ∨ t = s.setCwLen v ∨ t = s.setShCnt v) ∨
    (∃ b i v, i < Config.capacity ∧ t = s.writeEntry b i v) ∨
    (∃ target off w, e = .write target 4 w ∧ target.resolve = .ok off ∧ regAt off = some .cmd ∧
      execWord w s = .next t) := by
  cases e with
  | reset => injection h with h; exact .inl ⟨rfl, h.symm⟩
  | read target n =>
    unfold performEvent at h
    cases hr : target.resolve with
    | error r => simp only [hr] at h; cases h
    | ok off =>
      simp only [hr] at h
      rcases hostRead_cases off n s with ⟨_, w, -, -, -, e⟩ | ⟨_, _, v, -, -, -, e⟩ |
        ⟨_, _, -, -, -, e⟩ | ⟨-, -, e⟩
      · rw [e] at h; injection h with h; exact .inr (.inl ⟨_, h.symm⟩)
      · rw [e] at h; injection h with h; exact .inr (.inl ⟨_, h.symm⟩)
      · rw [e] at h; cases h
      · rw [e] at h; cases h
  | write target n v =>
    unfold performEvent at h
    cases hr : target.resolve with
    | error r => simp only [hr] at h; cases h
    | ok off =>
      simp only [hr] at h
      rcases hostWrite_cases off n v s with ⟨rfl, hc, e⟩ | ⟨r, u, -, -, hw, e⟩ |
        ⟨b, i, -, he, e⟩ | ⟨-, -, e⟩
      · rw [e] at h
        exact .inr (.inr (.inr (.inr ⟨target, off, v, rfl, hr, hc, h⟩)))
      · rw [e] at h
        injection h with h
        subst h
        refine .inr (.inr (.inl ⟨lowByte v, ?_⟩))
        cases r <;> simp_all [State.writeLength]
      · rw [e] at h
        injection h with h
        exact .inr (.inr (.inr (.inl ⟨b, i, _, entryAt_lt he, h.symm⟩)))
      · rw [e] at h; cases h

/-- A step is the host's next event on the state without it, or nothing when none is left (R183, R216). -/
theorem step_cases (s : State) :
    (s.pending = [] ∧ step s = .next s) ∨
    (∃ e rest, s.pending = e :: rest ∧ step s = performEvent e (s.setPending rest)) := by
  unfold step performNext
  cases h : s.pending with
  | nil => exact .inl ⟨rfl, rfl⟩
  | cons e rest => exact .inr ⟨e, rest, rfl, rfl⟩

end Sys2Proof.Machine
end

