-- ==== Sys2Proof/Tests/Slice0.lean ====
section
/-! SUPPORT. Tests of the model: expected results from spec/95_test_vectors.md and the worked examples of the
rules; and, for every obligation with hypotheses, a witness that meets them. -/

open Sys2Proof Sys2Proof.Machine

namespace Sys2Proof.Tests

/-! ### Small states -/

/-- The next state of an answer. -/
def nextOf : Answer → Option State
  | .next s => some s
  | .fault _ => none
  | .refused _ => none

/-- The fault of an answer. -/
def faultOf : Answer → Option Fault
  | .next _ => none
  | .fault f => some f
  | .refused _ => none

/-- The refusal of an answer. -/
def refusalOf : Answer → Option Refusal
  | .next _ => none
  | .fault _ => none
  | .refused r => some r

/-- The decoder's command, if the word is legal. -/
def commandOf (w : Word) : Option Instr :=
  match decode w with
  | .ok i => some i
  | .error _ => none

/-- The STATUS word after an answer. -/
def statusAfter (a : Answer) : Option Word := (nextOf a).map State.statusWord

/-- The CONFIG word after an answer. -/
def configAfter (a : Answer) : Option Word := (nextOf a).map State.configWord

/-- RESULT after an answer. -/
def resultAfter (a : Answer) : Option Byte := (nextOf a).map State.result

/-- The reset state under the configuration (k, n). -/
def configured (k n : Byte) : State :=
  { State.reset with configK := k, configN := n, configValid := true }

/-- The same with a message in MSG and its length in MSG_LEN. -/
def withMsg (k n : Byte) (m : List Byte) : State :=
  ((configured k n).writeEntries .msg m).setMsgLen (BitVec.ofNat 8 m.length)

/-- The same with a codeword in CW and its length in CW_LEN. -/
def withCw (k n : Byte) (c : List Byte) : State :=
  ((configured k n).writeEntries .cw c).setCwLen (BitVec.ofNat 8 c.length)

/-- The same with a shard list in SH_IDX and SH_VAL and its length in SH_CNT. -/
def withList (k n : Byte) (is vs : List Byte) : State :=
  (((configured k n).writeEntries .shIdx is).writeEntries .shVal vs).setShCnt
    (BitVec.ofNat 8 is.length)

/-- STATUS = 0x00000104, as after a failed GDIV. -/
def failed : State := { State.reset with statusCode := 4, statusSticky := true }

/-- The reset state with host events to come. -/
def hosted (es : List HostEvent) : State := { State.reset with pending := es }

/-! ### WellFormed refuses an operand outside its range (R83, R89) -/

theorem test_wf_gadd_a : (AsmCommand.gadd 256 0).wellFormed = false := by decide
theorem test_wf_gadd_b : (AsmCommand.gadd 0 256).wellFormed = false := by decide
theorem test_wf_gsub : (AsmCommand.gsub 256 255).wellFormed = false := by decide
theorem test_wf_gmul : (AsmCommand.gmul 255 256).wellFormed = false := by decide
theorem test_wf_gdiv : (AsmCommand.gdiv 1 256).wellFormed = false := by decide
theorem test_wf_gpow_a : (AsmCommand.gpow 256 0).wellFormed = false := by decide
theorem test_wf_gpow_n : (AsmCommand.gpow 0 65536).wellFormed = false := by decide
theorem test_wf_cfge : (AsmCommand.cfge 256 0).wellFormed = false := by decide
theorem test_wf_cfge_p : (AsmCommand.cfge 1 256).wellFormed = false := by decide
theorem test_wf_cfgd : (AsmCommand.cfgd 1 256).wellFormed = false := by decide
theorem test_wf_evpt : (AsmCommand.evpt 256).wellFormed = false := by decide
theorem test_wf_ginv : (AsmCommand.ginv 256).wellFormed = false := by decide
theorem test_wf_gsqr : (AsmCommand.gsqr 256).wellFormed = false := by decide
theorem test_wf_largest : (AsmCommand.gpow 255 65535).wellFormed = true := by decide
theorem test_no_word_out_of_range :
    (Line.command (.gadd 256 0)).event = none ∧ (Line.command (.gpow 0 65536)).event = none := by decide
/-- R113's word for GINV 2, the expansion of the pseudo-instruction (R91). -/
theorem test_word_of_line :
    (Line.command (.ginv 2)).event = some (.write (.window 0x000) 4 0x00020104) := by decide

/-! ### Decoding: words written out from the formats of R82 and the opcodes of R84 -/

/-- NOP: 24 zeros, OP 00000000. -/
theorem test_decode_nop : decodeTableWord 32 0b00000000000000000000000000000000 = some .nop := by decide
/-- GADD 0x53, 0xCA: 00000000, B = 11001010, A = 01010011, OP 00000001 (R110). -/
theorem test_decode_gadd :
    decodeTableWord 32 0b00000000110010100101001100000001 = some (.gadd 0x53 0xCA) := by decide
/-- GSUB 0x99, 0xCA: 00000000, B, A = 10011001, OP 00000010 (R111). -/
theorem test_decode_gsub :
    decodeTableWord 32 0b00000000110010101001100100000010 = some (.gsub 0x99 0xCA) := by decide
/-- GMUL 0x10, 0x08: OP 00000011. -/
theorem test_decode_gmul :
    decodeTableWord 32 0b00000000000010000001000000000011 = some (.gmul 0x10 0x08) := by decide
/-- GDIV 0x01, 0x02: OP 00000100 (R113). -/
theorem test_decode_gdiv :
    decodeTableWord 32 0b00000000000000100000000100000100 = some (.gdiv 0x01 0x02) := by decide
/-- GPOW 0x02, 256: E = 0000000100000000, A = 00000010, OP 00000101. -/
theorem test_decode_gpow :
    decodeTableWord 32 0b00000001000000000000001000000101 = some (.gpow 0x02 256) := by decide
/-- CLRS: OP 00001111. -/
theorem test_decode_clrs : decodeTableWord 32 0b00000000000000000000000000001111 = some .clrs := by decide
/-- CFGE 6, 12: M = 00001100, K = 00000110, OP 00010000 (R122). -/
theorem test_decode_cfge :
    decodeTableWord 32 0b00000000000011000000011000010000 = some (.cfge 6 12) := by decide
/-- CFGD 2, 4: OP 00010001 (R123). -/
theorem test_decode_cfgd :
    decodeTableWord 32 0b00000000000001000000001000010001 = some (.cfgd 2 4) := by decide
/-- EVPT 17: IDX = 00010001, OP 00010010 (R124). -/
theorem test_decode_evpt :
    decodeTableWord 32 0b00000000000000000001000100010010 = some (.evpt 17) := by decide
theorem test_decode_encv : decodeTableWord 32 0b00000000000000000000000000100000 = some .encv := by decide
theorem test_decode_encc : decodeTableWord 32 0b00000000000000000000000000100001 = some .encc := by decide
theorem test_decode_dec : decodeTableWord 32 0b00000000000000000000000000110000 = some .dec := by decide
theorem test_decode_decl : decodeTableWord 32 0b00000000000000000000000000110001 = some .decl := by decide

/-- L2-X: PW has no reserved bits; every other format has. -/
theorem test_decode_no_reserved_bits_in_pw : commandOf 0xFFFF5305 = some (.gpow 0x53 65535) := by decide
theorem test_decode_illegal :
    ([0xFF000000, 0x01CA5301, 0x00000006, 0x00000040, 0x000000FF, 0x00011112, 0x00000120,
      0x80040211] : List Word).all (fun w => commandOf w == none) = true := by decide

/-! ### The field (L2-F), under the two polynomials the spec gives columns for -/

theorem test_mul_reduces : gfMul 0x11D 0x53 0xCA = 0x8F ∧ gfMul 0x11B 0x53 0xCA = 0x01 := by decide
theorem test_mul_largest : gfMul 0x11D 0xFF 0xFF = 0xE2 ∧ gfMul 0x11B 0xFF 0xFF = 0x13 := by decide
theorem test_inverse : gfInv 0x11D 0x53 = 0x8C ∧ gfInv 0x11B 0x53 = 0xCA := by decide +kernel
theorem test_div : gfDiv 0x11D 0x53 0xCA = some 0x6D ∧ gfDiv 0x11B 0x53 0xCA = some 0xB5 := by
  decide +kernel
theorem test_pow : gfPow 0x11D 0x02 8 = 0x1D ∧ gfPow 0x11B 0x02 8 = 0x1B := by decide +kernel
/-- L2-E: the Lagrange basis values for three points. -/
theorem test_basis :
    [basis 0x11D [1, 2, 3] 0 4, basis 0x11D [1, 2, 3] 1 4, basis 0x11D [1, 2, 3] 2 5] =
      [some 0x07, some 0x09, some 0x0E] := by decide +kernel

/-! ### Each command once or twice, from the vectors -/

/-- L2-C: NOP keeps STICKY. -/
theorem test_nop : statusAfter (exec .nop failed) = some 0x00000100 := by decide
/-- L2-C: CLRS clears it. -/
theorem test_clrs : statusAfter (exec .clrs failed) = some 0x00000000 := by decide
theorem test_gadd : resultAfter (exec (.gadd 0x53 0xCA) State.reset) = some 0x99 := by decide
theorem test_gsub : resultAfter (exec (.gsub 0x99 0xCA) State.reset) = some 0x53 := by decide
theorem test_gmul : resultAfter (exec (.gmul 0x0F 0x0F) State.reset) = some 0x55 := by decide
theorem test_gdiv_by_zero :
    statusAfter (exec (.gdiv 0x37 0x00) State.reset) = some 0x00000104 ∧
      resultAfter (exec (.gdiv 0x37 0x00) (State.reset.setResult 0x05)) = some 0x05 := by decide
theorem test_gpow_zero_to_the_zero : resultAfter (exec (.gpow 0x00 0) State.reset) = some 0x01 := by
  decide
theorem test_gpow_square : resultAfter (exec (.gpow 0x03 2) State.reset) = some 0x05 := by decide +kernel
theorem test_cfge : configAfter (exec (.cfge 6 12) State.reset) = some 0x00011206 := by decide
/-- S12: 200 + 56 = 256 is out of domain. -/
theorem test_cfge_too_many :
    statusAfter (exec (.cfge 200 56) (configured 2 4)) = some 0x00000105 ∧
      configAfter (exec (.cfge 200 56) (configured 2 4)) = some 0x00010402 := by decide
theorem test_cfgd : configAfter (exec (.cfgd 3 3) State.reset) = some 0x00010303 := by decide
theorem test_cfgd_negative_parity :
    statusAfter (exec (.cfgd 200 100) State.reset) = some 0x00000105 := by decide
theorem test_evpt_last : resultAfter (exec (.evpt 254) (configured 200 255)) = some 0xFF := by decide
theorem test_evpt_range : statusAfter (exec (.evpt 18) (configured 6 18)) = some 0x00000103 := by decide
theorem test_encv_replicates :
    (nextOf (exec .encv (withMsg 1 5 [0x3C]))).map (·.cwLen) = some 5 := by decide
theorem test_encc :
    (nextOf (exec .encc (withMsg 2 4 [0x10, 0x20]))).map (·.cw) =
      some [(0, 0x10), (1, 0x20), (2, 0x70), (3, 0x90)] := by decide +kernel
theorem test_encc_length : statusAfter (exec .encc (withMsg 6 18 [1, 2, 3, 4, 5, 6, 7])) = some 0x101 := by
  decide
/-- L2-D: a surplus entry is checked too. -/
theorem test_dec_surplus_checked :
    statusAfter (exec .dec (withList 2 4 [0, 1, 9] [0x10, 0x20, 0xFF])) = some 0x103 := by decide
/-- L2-D: InsufficientShards comes before the index check. -/
theorem test_dec_insufficient :
    statusAfter (exec .dec ((withList 2 4 [3, 3] [0x40, 0x40]).setShCnt 1)) = some 0x102 := by decide
theorem test_decl_length : statusAfter (exec .decl (withCw 2 4 [0x10, 0x20, 0x30])) = some 0x101 := by
  decide

/-- L2-E under 0x11D and 0x11B: the value-form codeword of 12 34 56. -/
theorem test_value_codeword :
    valueCodeword 0x11D 3 5 [0x12, 0x34, 0x56] = some [0x12, 0x34, 0x56, 0xC2, 0xA0] ∧
    valueCodeword 0x11B 3 5 [0x12, 0x34, 0x56] = some [0x12, 0x34, 0x56, 0xCE, 0xAC] := by
  decide +kernel

/-- L2-D under 0x11D: DEC's sum for the list (0,12) (3,C2) (4,A0). -/
theorem test_decoded_message :
    decodedMessage 0x11D 3 (points [0, 3, 4]) [0x12, 0xC2, 0xA0] = some [0x12, 0x34, 0x56] := by
  decide +kernel

/-- L2-E, any polynomial: the value-form codeword of 10 20 under K = 2, N = 4. -/
theorem test_value_codeword_any :
    ∀ p ∈ Config.legalPolys, valueCodeword p 2 4 [0x10, 0x20] = some [0x10, 0x20, 0x30, 0x40] := by
  decide +kernel

/-- L2-D, any polynomial: positions 1 and 2, and positions 2 and 3, of that codeword. -/
theorem test_decoded_message_any :
    ∀ p ∈ Config.legalPolys,
      decodedMessage p 2 (points [1, 2]) [0x20, 0x30] = some [0x10, 0x20] ∧
      decodedMessage p 2 (points [2, 3]) [0x30, 0x40] = some [0x10, 0x20] := by
  decide +kernel

/-- ENCV's result on 10 20 under K = 2, N = 4. -/
def encoded : State :=
  ((withMsg 2 4 [0x10, 0x20]).writeEntries .cw [0x10, 0x20, 0x30, 0x40]).setCwLen 4

theorem test_encv : exec .encv (withMsg 2 4 [0x10, 0x20]) = .next encoded := by
  have h := test_value_codeword_any Config.gfPoly gfPoly_legal
  show (match valueCodeword Config.gfPoly 2 4 [0x10, 0x20] with
    | none => commandFail .divisionByZero (withMsg 2 4 [0x10, 0x20])
    | some c => codewordDone c (withMsg 2 4 [0x10, 0x20])) = _
  rw [h]
  rfl

/-- The list (3,40) (1,20) (2,30) beside that codeword: DEC selects the entries 1 and 2 (L2-D). -/
def listed : State :=
  ((encoded.writeEntries .shIdx [3, 1, 2]).writeEntries .shVal [0x40, 0x20, 0x30]).setShCnt 3

theorem test_dec : exec .dec listed = .next ((listed.writeEntries .msg [0x10, 0x20]).setMsgLen 2) := by
  have h := (test_decoded_message_any Config.gfPoly gfPoly_legal).1
  show (match decodedMessage Config.gfPoly 2 (points [1, 2]) [0x20, 0x30] with
    | none => commandFail .divisionByZero listed
    | some r => commandDone ((listed.writeEntries .msg r).setMsgLen 2)) = _
  rw [h]
  rfl

theorem test_decl : exec .decl encoded = .next ((encoded.writeEntries .msg [0x10, 0x20]).setMsgLen 2) := by
  have h := (test_decoded_message_any Config.gfPoly gfPoly_legal).2
  show (match decodedMessage Config.gfPoly 2 (points [2, 3]) [0x30, 0x40] with
    | none => commandFail .divisionByZero encoded
    | some r => commandDone ((encoded.writeEntries .msg r).setMsgLen 2)) = _
  rw [h]
  rfl

/-! ### The host window (L2-M) -/

theorem test_read_status : (nextOf (hostRead 0x004 4 State.reset)).map (·.reads) = some [0] := by decide
theorem test_length_keeps_low_byte :
    (nextOf (hostWrite 0x010 4 0x00000106 State.reset)).map (·.msgLen) = some 0x06 := by decide
theorem test_read_unwritten : faultOf (hostRead 0x100 1 State.reset) = some (.unwrittenRead .msg 0) := by
  decide
theorem test_write_entry :
    (nextOf (hostWrite 0x207 1 0xAA State.reset)).map (·.cw) = some [(7, 0xAA)] := by decide
theorem test_bus_faults :
    [faultOf (hostRead 0x004 1 State.reset), faultOf (hostRead 0x006 4 State.reset),
      faultOf (hostWrite 0x004 4 0 State.reset), faultOf (hostRead 0x000 4 State.reset),
      faultOf (hostRead 0x020 4 State.reset), faultOf (hostRead 0x1FF 1 State.reset),
      faultOf (hostWrite 0x100 4 0x04030201 State.reset)] =
    [some (.busFault 0x004), some (.busFault 0x006), some (.busFault 0x004), some (.busFault 0x000),
      some (.busFault 0x020), some (.busFault 0x1FF), some (.busFault 0x100)] := by decide

/-- L2-X: an illegal word with CONFIG.VALID = 0 ends with code 7, not 6. -/
theorem test_illegal_word : statusAfter (execWord 0x00000120 State.reset) = some 0x107 := by decide

/-- A command placed at reset is what the next step runs. -/
theorem test_fetch : resultAfter (step (State.reset.withFetchWord 32 0x00CA5301)) = some 0x99 := by decide

/-- P8: a byte read of STATUS ends the run with that fault, in the reset state. -/
theorem test_bus_fault_ends_run :
    (runEnd 1 (hosted [.read (.window 0x004) 1])).faults = [.busFault 0x004] := by decide

/-- R92: `wr8 CW[7], 0xAA` and the command line `NOP`. -/
theorem test_program_lines :
    programEvents [.wr8 (.entry .cw 7) 0xAA, .command .nop] =
      some [.write (.window 0x207) 1 0xAA, .write (.window 0x000) 4 0] := by decide
theorem test_program_error : programEvents [.wr8 (.entry .cw 255) 0] = none := by decide

/-! ### Witnesses: the hypotheses of each obligation are met -/

theorem witness_DecodeAndEncodeAreInverse : decode 0x00CA5301 = .ok (.gadd 0x53 0xCA) := rfl

/-- One word for each line of the decode function, the last one for an unassigned opcode, and one with a set
reserved bit for each line that has reserved bits. -/
theorem witness_DecodeFollowsTheDecodeFunction :
    ([0x00, 0x00FFFF01, 0x02, 0x03, 0x04, 0xFFFFFF05, 0x0F, 0x10, 0x11, 0x0000FF12, 0x20, 0x21, 0x30, 0x31,
      0x32] : List Word).map (·.setWidth 8) =
      ([0x00, 0x01, 0x02, 0x03, 0x04, 0x05, 0x0F, 0x10, 0x11, 0x12, 0x20, 0x21, 0x30, 0x31, 0x32] : List Byte) ∧
    (0x32 : Byte) ∉ ([0x00, 0x01, 0x02, 0x03, 0x04, 0x05, 0x0F, 0x10, 0x11, 0x12, 0x20, 0x21, 0x30,
      0x31] : List Byte) ∧
    commandOf 0x00FFFF01 = some (.gadd 0xFF 0xFF) ∧ commandOf 0x01000001 = none ∧
    commandOf 0x0000FF12 = some (.evpt 0xFF) ∧ commandOf 0x00010012 = none := by decide

/-- A word of no mnemonic for each of the two reasons, and a legal word. -/
theorem witness_IllegalWordFailsWithCodeSeven :
    (∀ x : Mnemonic, ¬ x.legal 0x00000006) ∧ (∀ x : Mnemonic, x.opcode ≠ (0x00000006 : Word).setWidth 8) ∧
    (∀ x : Mnemonic, ¬ x.legal 0x00000100) ∧
    ((0x00000100 : Word) &&& Mnemonic.nop.format.mask &&& 0xFFFFFF00 ≠ 0) ∧
    Mnemonic.gadd.legal 0x00CA5301 := by
  refine ⟨fun x => ?_, fun x => ?_, fun x => ?_, by decide, by decide⟩ <;> cases x <;> decide

theorem witness_WordLanesAreLittleEndian : (3 : Nat) < 4 ∧ (7 : Nat) < 8 ∧ laneByte 0x80000000 3 = 0x80 := by
  decide

/-- A legal and an illegal word at the head of the host's list. -/
theorem witness_StepRunsDecodedCommand :
    (hosted [.write (.window 0x000) 4 0x00CA5301]).pending = .write (.window 0x000) 4 0x00CA5301 :: [] ∧
    commandOf 0x00CA5301 = some (.gadd 0x53 0xCA) ∧
    (hosted [.write (.window 0x000) 4 0x06]).pending = .write (.window 0x000) 4 0x06 :: [] ∧
    commandOf 0x06 = none := by decide

/-- Each kind of event at the head of the host's list: at an offset, at the first address of the window, at the
first address after it, and a reset; and the empty list. -/
theorem witness_StepPerformsNextHostEvent :
    (hosted [.read (.window 0x004) 4]).pending = .read (.window 0x004) 4 :: [] ∧
    (hosted [.write (.window 0x100) 1 5]).pending = .write (.window 0x100) 1 5 :: [] ∧
    (hosted [.read (.address (Config.unitBase + (0x000 : Offset).toNat)) 4]).pending =
      .read (.address (Config.unitBase + (0x000 : Offset).toNat)) 4 :: [] ∧
    (hosted [.write (.address (Config.unitBase + 0x1000)) 4 0]).pending =
      .write (.address (Config.unitBase + 0x1000)) 4 0 :: [] ∧
    Config.unitBase + 0x1000 ≤ Config.unitBase + 0x1000 ∧
    (hosted [.reset]).pending = .reset :: [] ∧ State.reset.pending = [] :=
  ⟨rfl, rfl, rfl, rfl, Nat.le_refl _, rfl, rfl⟩

theorem witness_ResetGivesResetState : (hosted [.reset]).pending = .reset :: [] := rfl

/-- P7: the run that meets an unwritten message entry. -/
theorem witness_FaultedRunKeepsItsFault :
    (runEnd 1 { withMsg 1 2 [0] with msg := [], pending := [commandEvent 0x20] }).faults ≠ [] := by decide

theorem witness_GmulWritesProduct : clmul 0x0F 0x0F < 0x100 := by decide

/-- GDIV 0x06, 0x03 = 0x02 with no reduction. -/
theorem witness_GdivWritesQuotient :
    (0x03 : Byte) ≠ 0 ∧ clmul 0x03 0x02 = (0x06 : Byte).setWidth 15 := by decide

theorem witness_GpowWritesPower :
    (0xFFFF5305 : Word).setWidth 8 = (0x05 : Byte) ∧ (1 : BitVec 16) ≠ 0 ∧ (0x53 : Byte) ≠ 0 := by decide

/-- A legal and a reducible polynomial: 0x101 = (x + 1)^8. -/
theorem witness_LegalPolynomialsAreTheIrreducibleOnes :
    0x11D ∈ Config.legalPolys ∧ 0x101 ∉ Config.legalPolys ∧
      clmul 0x11 0x11 = (0x101 : BitVec 9).setWidth 15 := by decide

theorem witness_ReductionIsRemainder : (0x11B : BitVec 9).getLsbD 8 = true := by decide

theorem witness_GfMulIsShiftAndAdd : 0x11B ∈ Config.legalPolys := by decide

theorem witness_FieldLaws : 0x1F9 ∈ Config.legalPolys ∧ (1 : Byte) ≠ 0 := by decide

theorem witness_InverseAndQuotientAreUnique :
    0x11D ∈ Config.legalPolys ∧ (0x53 : Byte) ≠ 0 ∧ gfMul 0x11D 0x53 0x8C = 1 := by decide

theorem witness_PowerHasClosedForm : 0x11D ∈ Config.legalPolys := by decide

/-- Two points with the values 10 and 20, and a polynomial through them: 0x10 times x. -/
theorem witness_InterpolationEvaluatesUniquePolynomial :
    0x11D ∈ Config.legalPolys ∧ ([1, 2] : List Byte) ≠ [] ∧ ([1, 2] : List Byte).Nodup ∧
      ([0x10, 0x20] : List Byte).length = ([1, 2] : List Byte).length ∧
      ([1, 2] : List Byte).map (horner 0x11D [0, 0x10]) = [0x10, 0x20] := by decide +kernel

theorem witness_HornerIsPolynomialValue : 0x11B ∈ Config.legalPolys := by decide

/-- The two failures and the largest configuration (L2-P). -/
theorem witness_CfgeSetsConfiguration :
    ((0 : Byte) = 0 ∨ 255 < (0 : Byte).toNat + (5 : Byte).toNat) ∧
    ((200 : Byte) = 0 ∨ 255 < (200 : Byte).toNat + (56 : Byte).toNat) ∧
    ¬ ((200 : Byte) = 0 ∨ 255 < (200 : Byte).toNat + (55 : Byte).toNat) := by decide

theorem witness_CfgdSetsConfiguration :
    ((0 : Byte) = 0 ∨ (5 : Byte).toNat < (0 : Byte).toNat) ∧
    ((3 : Byte) = 0 ∨ (2 : Byte).toNat < (3 : Byte).toNat) ∧
    ¬ ((3 : Byte) = 0 ∨ (3 : Byte).toNat < (3 : Byte).toNat) ∧
    (200 : Byte) ≠ 0 ∧ (200 : Byte).toNat + (55 : Byte).toNat ≤ 255 := by decide

/-- Not configured; index N, the first that is out of range; index N - 1, the last in range. -/
theorem witness_EvptWritesPoint :
    State.reset.configValid = false ∧
    ((configured 6 18).configValid = true ∧ (configured 6 18).configN.toNat ≤ (18 : Byte).toNat) ∧
    ((configured 6 18).configValid = true ∧ (17 : Byte).toNat < (configured 6 18).configN.toNat) := by
  decide

/-- A step that keeps CONFIG, a reset, and a CFGE, each with its next state. -/
theorem witness_ConfigChangesOnlyByConfigure :
    (hosted [.read (.window 0x004) 4]).pending = .read (.window 0x004) 4 :: [] ∧
    (nextOf (step (hosted [.read (.window 0x004) 4]))).isSome = true ∧
    (nextOf (step (hosted [.reset]))).isSome = true ∧
    (nextOf (step (hosted [.write (.window 0x000) 4 0x000C0610]))).map (·.configN) = some 18 := by decide

/-- Not configured; a wrong length; the first and the last message entry unwritten. -/
theorem witness_EncodersCheckInOrder :
    State.reset.configValid = false ∧
    ((configured 6 18).configValid = true ∧ (configured 6 18).msgLen ≠ (configured 6 18).configK) ∧
    (((configured 2 4).setMsgLen 2).msgLen = ((configured 2 4).setMsgLen 2).configK ∧
      ((configured 2 4).setMsgLen 2).readEntry .msg 0 = none) ∧
    ((withMsg 2 4 [0x10]).setMsgLen 2).readEntry .msg 0 ≠ none ∧
    ((withMsg 2 4 [0x10]).setMsgLen 2).readEntry .msg 1 = none ∧
    faultOf (exec .encv ((withMsg 2 4 [0x10]).setMsgLen 2)) = some (.unwrittenRead .msg 1) := by decide

theorem witness_EncvCompletes :
    (withMsg 2 4 [0x10, 0x20]).configValid = true ∧
    (withMsg 2 4 [0x10, 0x20]).msgLen = (withMsg 2 4 [0x10, 0x20]).configK ∧
    ([0x10, 0x20] : List Byte).length = (withMsg 2 4 [0x10, 0x20]).configK.toNat ∧
    Holds (withMsg 2 4 [0x10, 0x20]) .msg (List.range (withMsg 2 4 [0x10, 0x20]).configK.toNat)
      [0x10, 0x20] := by decide

theorem witness_EnccCompletes :
    (withMsg 3 3 [0x12, 0x34, 0x56]).configValid = true ∧
    (withMsg 3 3 [0x12, 0x34, 0x56]).msgLen = (withMsg 3 3 [0x12, 0x34, 0x56]).configK ∧
    ([0x12, 0x34, 0x56] : List Byte).length = (withMsg 3 3 [0x12, 0x34, 0x56]).configK.toNat ∧
    Holds (withMsg 3 3 [0x12, 0x34, 0x56]) .msg
      (List.range (withMsg 3 3 [0x12, 0x34, 0x56]).configK.toNat) [0x12, 0x34, 0x56] := by decide

theorem witness_CodewordBeginsWithMessage :
    ConfigInv (withMsg 2 4 [0x10, 0x20]) ∧ exec .encv (withMsg 2 4 [0x10, 0x20]) = .next encoded ∧
      encoded.statusCode = 0 ∧ (1 : Nat) < encoded.configK.toNat :=
  ⟨by decide, test_encv, by decide, by decide⟩

/-- K = 1, and N = K, for both encoders. -/
theorem witness_EncoderBoundaryCases :
    (ConfigInv (withMsg 1 5 [0x3C]) ∧ (withMsg 1 5 [0x3C]).configK = 1 ∧
      (nextOf (exec .encv (withMsg 1 5 [0x3C]))).map (·.statusCode) = some 0 ∧
      (nextOf (exec .encc (withMsg 1 5 [0x3C]))).map (·.statusCode) = some 0) ∧
    ConfigInv (withMsg 2 2 [1, 2]) ∧ (withMsg 2 2 [1, 2]).configN = (withMsg 2 2 [1, 2]).configK ∧
      (nextOf (exec .encv (withMsg 2 2 [1, 2]))).map (·.statusCode) = some 0 ∧
      (nextOf (exec .encc (withMsg 2 2 [1, 2]))).map (·.statusCode) = some 0 := by decide

/-- The codeword 10 20 30 40 and the polynomial 0x10 times x at its positions 2 and 3. -/
theorem witness_ValueFormCodewordIsMds :
    ConfigInv (withMsg 2 4 [0x10, 0x20]) ∧ exec .encv (withMsg 2 4 [0x10, 0x20]) = .next encoded ∧
      encoded.statusCode = 0 ∧ ([2, 3] : List Nat).Nodup ∧
      ([2, 3] : List Nat).length = (withMsg 2 4 [0x10, 0x20]).configK.toNat ∧
      (∀ i ∈ ([2, 3] : List Nat), i < (withMsg 2 4 [0x10, 0x20]).configN.toNat ∧
        encoded.readEntry .cw i = some (horner Config.gfPoly [0, 0x10] (point i))) ∧
      ([0, 0x10] : List Byte).length = (withMsg 2 4 [0x10, 0x20]).configK.toNat :=
  ⟨by decide, test_encv, by decide, by decide, by decide, by decide +kernel, by decide⟩

theorem witness_CoefficientFormIsNotDecodable : 0x11D ∈ Config.legalPolys := by decide

/-- Two states that differ in RESULT and agree in what the encoders read. -/
theorem witness_EncoderDependsOnMessageOnly :
    SameConfig (withMsg 2 4 [0x10, 0x20]) ((withMsg 2 4 [0x10, 0x20]).setResult 7) ∧
    ((withMsg 2 4 [0x10, 0x20]).setResult 7).msgLen = (withMsg 2 4 [0x10, 0x20]).msgLen ∧
    ∀ j < (withMsg 2 4 [0x10, 0x20]).configK.toNat,
      ((withMsg 2 4 [0x10, 0x20]).setResult 7).readEntry .msg j =
        (withMsg 2 4 [0x10, 0x20]).readEntry .msg j := by decide

/-- NotConfigured; InsufficientShards; the last index unwritten. -/
theorem witness_DecChecksInOrder_early :
    State.reset.configValid = false ∧
    ((configured 2 4).configValid = true ∧ (configured 2 4).shCnt.toNat < (configured 2 4).configK.toNat) ∧
    (((withList 2 4 [3] []).setShCnt 2).configK.toNat ≤ ((withList 2 4 [3] []).setShCnt 2).shCnt.toNat ∧
      ((withList 2 4 [3] []).setShCnt 2).readEntry .shIdx 0 ≠ none ∧
      ((withList 2 4 [3] []).setShCnt 2).readEntry .shIdx 1 = none) := by decide

/-- An index equal to N; a repeated index. -/
theorem witness_DecChecksInOrder_index :
    (Holds (withList 2 4 [4, 1] [0, 0x20]) .shIdx (List.range 2) [4, 1] ∧
      ∃ x ∈ ([4, 1] : List Byte), (withList 2 4 [4, 1] [0, 0x20]).configN.toNat ≤ x.toNat) ∧
    Holds (withList 2 4 [3, 1, 3] [0x40, 0x20, 0x40]) .shIdx (List.range 3) [3, 1, 3] ∧
      ¬ ([3, 1, 3] : List Byte).Nodup := by decide

/-- The list (3,⊥) (1,20) under K = 2: the selection is the entries 1 and 0, and the value of entry 0, the
second selected one, is unwritten. -/
theorem witness_DecChecksInOrder_value :
    Holds ((withList 2 4 [3, 1] []).writeEntry .shVal 1 0x20) .shIdx (List.range 2) [3, 1] ∧
    (∀ x ∈ ([3, 1] : List Byte), x.toNat < (withList 2 4 [3, 1] []).configN.toNat) ∧
    ([3, 1] : List Byte).Nodup ∧ IsSelection 2 (([3, 1] : List Byte).map BitVec.toNat) [1, 0] ∧
    ([1, 0] : List Nat) = [1] ++ 0 :: [] ∧
    ((withList 2 4 [3, 1] []).writeEntry .shVal 1 0x20).readEntry .shVal 1 ≠ none ∧
    ((withList 2 4 [3, 1] []).writeEntry .shVal 1 0x20).readEntry .shVal 0 = none ∧
    faultOf (exec .dec ((withList 2 4 [3, 1] []).writeEntry .shVal 1 0x20)) =
      some (.unwrittenRead .shVal 0) := by decide

theorem witness_DecCompletes :
    listed.configValid = true ∧ listed.configK.toNat ≤ listed.shCnt.toNat ∧
    Holds listed .shIdx (List.range listed.shCnt.toNat) [3, 1, 2] ∧
    (∀ x ∈ ([3, 1, 2] : List Byte), x.toNat < listed.configN.toNat) ∧ ([3, 1, 2] : List Byte).Nodup ∧
    IsSelection listed.configK.toNat (([3, 1, 2] : List Byte).map BitVec.toNat) [1, 2] ∧
    Holds listed .shVal [1, 2] [0x20, 0x30] := by decide

theorem witness_SelectionIsTheSmallestIndices :
    ([9, 0, 7, 2] : List Nat).Nodup ∧ 2 ≤ ([9, 0, 7, 2] : List Nat).length ∧
      IsSelection 2 [9, 0, 7, 2] [1, 3] := by decide

/-- Not configured; a wrong length; the first and the last entry it reads unwritten. -/
theorem witness_DeclChecksInOrder :
    State.reset.configValid = false ∧
    ((withCw 2 4 [1, 2, 3]).configValid = true ∧
      (withCw 2 4 [1, 2, 3]).cwLen ≠ (withCw 2 4 [1, 2, 3]).configN) ∧
    (((configured 2 4).setCwLen 4).cwLen = ((configured 2 4).setCwLen 4).configN ∧
      ConfigInv ((configured 2 4).setCwLen 4) ∧ ((configured 2 4).setCwLen 4).readEntry .cw 2 = none) ∧
    (ConfigInv ((withCw 2 4 [1, 2, 3]).setCwLen 4) ∧
      ((withCw 2 4 [1, 2, 3]).setCwLen 4).readEntry .cw 2 ≠ none ∧
      ((withCw 2 4 [1, 2, 3]).setCwLen 4).readEntry .cw 3 = none) := by decide

/-- Only the last K entries are written: the others may be unwritten (R161). -/
theorem witness_DeclCompletes :
    let s := (((configured 2 4).writeEntry .cw 2 0x30).writeEntry .cw 3 0x40).setCwLen 4
    ConfigInv s ∧ s.configValid = true ∧ s.cwLen = s.configN ∧
    ([0x30, 0x40] : List Byte).length = s.configK.toNat ∧
    ∀ e < s.configK.toNat,
      s.readEntry .cw (s.configN.toNat - s.configK.toNat + e) = some (([0x30, 0x40] : List Byte).getD e 0) := by
  decide

/-- `encoded` with DECL's list as the shard list. -/
def listedLast : State :=
  ((encoded.writeEntries .shIdx [2, 3]).writeEntries .shVal [0x30, 0x40]).setShCnt 2

theorem witness_DeclEqualsDecOfLastPositions :
    ConfigInv encoded ∧
    exec .decl encoded = .next ((encoded.writeEntries .msg [0x10, 0x20]).setMsgLen 2) ∧
    ((encoded.writeEntries .msg [0x10, 0x20]).setMsgLen 2).statusCode = 0 ∧
    SameConfig encoded listedLast ∧ listedLast.shCnt = encoded.configK ∧
    ∀ e < encoded.configK.toNat,
      listedLast.readEntry .shIdx e =
        some (BitVec.ofNat 8 (encoded.configN.toNat - encoded.configK.toNat + e)) ∧
      listedLast.readEntry .shVal e =
        encoded.readEntry .cw (encoded.configN.toNat - encoded.configK.toNat + e) :=
  ⟨by decide, test_decl, by decide, by decide, by decide, by decide⟩

theorem witness_DecRecoversEncodedMessage :
    ConfigInv (withMsg 2 4 [0x10, 0x20]) ∧ exec .encv (withMsg 2 4 [0x10, 0x20]) = .next encoded ∧
    encoded.statusCode = 0 ∧ SameConfig encoded listed ∧
    listed.configK.toNat ≤ listed.shCnt.toNat ∧
    Holds listed .shIdx (List.range listed.shCnt.toNat) [3, 1, 2] ∧ ([3, 1, 2] : List Byte).Nodup ∧
    (∀ x ∈ ([3, 1, 2] : List Byte), x.toNat < listed.configN.toNat) ∧
    ∀ e < listed.shCnt.toNat,
      listed.readEntry .shVal e = encoded.readEntry .cw (([3, 1, 2] : List Byte).getD e 0).toNat :=
  ⟨by decide, test_encv, by decide, by decide, by decide, by decide, by decide, by decide, by decide⟩

theorem witness_DeclRecoversEncodedMessage :
    ConfigInv (withMsg 2 4 [0x10, 0x20]) ∧ exec .encv (withMsg 2 4 [0x10, 0x20]) = .next encoded ∧
    encoded.statusCode = 0 ∧ SameConfig encoded encoded ∧ encoded.cwLen = encoded.configN ∧
    ∀ i < encoded.configN.toNat, encoded.configN.toNat - encoded.configK.toNat ≤ i →
      encoded.readEntry .cw i = encoded.readEntry .cw i :=
  ⟨by decide, test_encv, by decide, by decide, by decide, by decide⟩

theorem witness_SelectedSystematicPositionIsKept :
    exec .dec listed = .next ((listed.writeEntries .msg [0x10, 0x20]).setMsgLen 2) ∧
    ((listed.writeEntries .msg [0x10, 0x20]).setMsgLen 2).statusCode = 0 ∧
    Holds listed .shIdx (List.range listed.shCnt.toNat) [3, 1, 2] ∧
    IsSelection listed.configK.toNat (([3, 1, 2] : List Byte).map BitVec.toNat) [1, 2] ∧
    1 ∈ ([1, 2] : List Nat) ∧ (([3, 1, 2] : List Byte).getD 1 0).toNat < listed.configK.toNat :=
  ⟨test_dec, by decide, by decide, by decide, by decide, by decide⟩

/-- Two shard lists that differ in the value of a surplus entry, the first one. -/
theorem witness_DecDependsOnSelectedValuesOnly :
    SameConfig listed (listed.writeEntry .shVal 0 0xEE) ∧
    (listed.writeEntry .shVal 0 0xEE).shCnt = listed.shCnt ∧
    (∀ e < listed.shCnt.toNat,
      (listed.writeEntry .shVal 0 0xEE).readEntry .shIdx e = listed.readEntry .shIdx e) ∧
    Holds listed .shIdx (List.range listed.shCnt.toNat) [3, 1, 2] ∧
    IsSelection listed.configK.toNat (([3, 1, 2] : List Byte).map BitVec.toNat) [1, 2] ∧
    ∀ e ∈ ([1, 2] : List Nat),
      (listed.writeEntry .shVal 0 0xEE).readEntry .shVal e = listed.readEntry .shVal e := by decide

theorem witness_FailureWritesOnlyStatus :
    exec (.gdiv 0x37 0) State.reset = .next { State.reset with statusCode := 4, statusSticky := true } ∧
      ({ State.reset with statusCode := 4, statusSticky := true } : State).statusCode ≠ 0 :=
  ⟨rfl, by decide⟩

/-- Each code on the machine, and an illegal word. -/
theorem witness_CodesEachCommandEndsWith :
    [statusAfter (exec .nop State.reset), statusAfter (exec .encv (configured 2 4)),
      statusAfter (exec .dec (configured 2 4)), statusAfter (exec (.evpt 4) (configured 2 4)),
      statusAfter (exec (.gdiv 1 0) State.reset), statusAfter (exec (.cfgd 3 2) State.reset),
      statusAfter (exec .decl State.reset), statusAfter (execWord 0x06 State.reset)] =
    [some 0, some 0x101, some 0x102, some 0x103, some 0x104, some 0x105, some 0x106, some 0x107] ∧
    commandOf 0x06 = none := by decide

/-- A failure, CLRS, another command; a read and a length write. -/
theorem witness_StickyIsSetByFailureClearedByClrs :
    (nextOf (exec (.evpt 0) State.reset)).map (·.statusSticky) = some true ∧
    (nextOf (exec .clrs failed)).map (·.statusSticky) = some false ∧
    (nextOf (exec .nop failed)).map (·.statusSticky) = some true ∧
    (nextOf (hostRead 0x004 4 failed)).isSome = true ∧
    (0x010 : Offset) ≠ 0x000 ∧ (nextOf (hostWrite 0x010 4 2 failed)).isSome = true := by decide

/-- Each register-only command has a next state. -/
theorem witness_RegisterCommandsFrame :
    [exec (.gadd 1 2) failed, exec (.gsub 1 2) failed, exec (.gmul 1 2) failed, exec (.gdiv 0 1) failed,
      exec (.gpow 1 0) failed, exec (.evpt 0) (configured 2 4), exec (.cfge 2 2) failed,
      exec (.cfgd 2 4) failed, exec .nop failed, exec .clrs failed].all (fun a => (nextOf a).isSome) =
      true := by decide

/-- A success of each encoder under N < 255, so that an entry outside CW[0..N-1] exists. -/
theorem witness_EncodersFrame :
    exec .encv (withMsg 2 4 [0x10, 0x20]) = .next encoded ∧
    (nextOf (exec .encc (withMsg 2 4 [0x10, 0x20]))).isSome = true ∧
    ¬ 4 < (withMsg 2 4 [0x10, 0x20]).configN.toNat :=
  ⟨test_encv, by decide, by decide⟩

theorem witness_DecodersFrame :
    exec .dec listed = .next ((listed.writeEntries .msg [0x10, 0x20]).setMsgLen 2) ∧
    exec .decl encoded = .next ((encoded.writeEntries .msg [0x10, 0x20]).setMsgLen 2) ∧
    ¬ 2 < listed.configK.toNat ∧ ¬ 2 < encoded.configK.toNat :=
  ⟨test_dec, test_decl, by decide, by decide⟩

/-- The first and the last entry, and two different places. -/
theorem witness_BufferWriteIsReadBack :
    (0 : Nat) < 255 ∧ (254 : Nat) < 255 ∧ ((Buf.cw, 0) : Buf × Nat) ≠ (.msg, 0) ∧
    (nextOf (hostWrite (BitVec.ofNat 12 (Buf.shVal.base + 254)) 1 0x1AA State.reset)).map (·.shVal) =
      some [(254, 0xAA)] := by decide

/-- Offsets and widths the host may read at: the ends of the registers and of the first and last buffer (R52). -/
theorem witness_InadmissibleAccessIsBusFault_admitted :
    (∀ a ∈ ([(0x004, 4), (0x018, 4), (0x100, 1), (0x1FE, 1), (0x400, 1), (0x4FE, 1)] : List (Offset × Nat)),
      readAdmitted a.1 a.2) ∧
    ∀ a ∈ ([(0x000, 4), (0x010, 4), (0x018, 4), (0x100, 1), (0x4FE, 1)] : List (Offset × Nat)),
      writeAdmitted a.1 a.2 := by decide

/-- Beside each of those ends, and at a wrong width or in a wrong direction, the host may not (R53 to R56). -/
theorem witness_InadmissibleAccessIsBusFault_refused :
    (∀ a ∈ ([(0x000, 4), (0x01C, 4), (0x006, 4), (0x004, 1), (0x0FF, 1), (0x1FF, 1), (0x4FF, 1), (0x500, 1),
      (0x100, 2), (0x100, 4)] : List (Offset × Nat)), ¬ readAdmitted a.1 a.2) ∧
    ∀ a ∈ ([(0x004, 4), (0x00C, 4), (0x000, 1), (0x1FF, 1), (0xFFF, 1)] : List (Offset × Nat)),
      ¬ writeAdmitted a.1 a.2 := by decide

theorem witness_UnwrittenEntryReadFaults :
    (254 : Nat) < 255 ∧ State.reset.readEntry .shIdx 254 = none ∧
      (State.reset.writeEntry .shIdx 254 9).readEntry .shIdx 254 = some 9 := by decide

/-- The first byte after the window; below it, an address exists when the window does not begin at 0. -/
theorem witness_WindowStandsAtUnitBase :
    Config.unitBase + 0x1000 < Config.unitBase ∨ Config.unitBase + 0x1000 ≤ Config.unitBase + 0x1000 :=
  .inr (Nat.le_refl _)

theorem witness_StepKeepsInvariant :
    Inv (hosted [.write (.window 0x000) 4 0x000C0610]) ∧
      (nextOf (step (hosted [.write (.window 0x000) 4 0x000C0610]))).isSome = true := by decide

end Sys2Proof.Tests
end

section
/-! SUPPORT. A word read as a polynomial over GF(2), bit i the coefficient of x^i (R12): the exclusive-or is the
sum and the carry-less product the product, so Mathlib's laws of polynomials hold of them. -/

namespace Sys2Proof.Machine

open Polynomial

/-- The polynomial over GF(2) of a word: bit i is the coefficient of x^i (R12). -/
noncomputable def toPoly {w : Nat} (c : BitVec w) : (ZMod 2)[X] :=
  ∑ i ∈ Finset.range w, if c.getLsbD i then X ^ i else 0

theorem coeff_toPoly {w : Nat} (c : BitVec w) (k : Nat) :
    (toPoly c).coeff k = if c.getLsbD k then 1 else 0 := by
  simp only [toPoly, finsetSum_coeff, apply_ite (coeff · k), coeff_X_pow, coeff_zero]
  rw [Finset.sum_eq_single k]
  · simp
  · intro i _ hik; simp [Ne.symm hik]
  · intro hk
    simp [BitVec.getLsbD_of_ge c k (by simpa using hk)]

/-- A word is its polynomial's coefficients and nothing else. -/
theorem toPoly_injective {w : Nat} : Function.Injective (toPoly (w := w)) := fun c d h =>
  BitVec.eq_of_getLsbD_eq fun k _ => by
    have hk := congrArg (coeff · k) h
    cases hc : c.getLsbD k <;> cases hd : d.getLsbD k <;> simp [coeff_toPoly, hc, hd] at hk ⊢

@[simp] theorem toPoly_zero {w : Nat} : toPoly 0#w = 0 := by simp [toPoly]

/-- The exclusive-or of words is the sum of polynomials (R100). -/
@[simp] theorem toPoly_xor {w : Nat} (c d : BitVec w) : toPoly (c ^^^ d) = toPoly c + toPoly d := by
  ext k
  have two : (1 + 1 : ZMod 2) = 0 := rfl
  cases hc : c.getLsbD k <;> cases hd : d.getLsbD k <;> simp [coeff_toPoly, hc, hd, two]

/-- A shift that loses no bit is the product with a power of x. -/
theorem toPoly_shiftLeft {w i : Nat} (c : Byte) (h : i + 8 ≤ w) :
    toPoly (c.setWidth w <<< i) = toPoly c * X ^ i := by
  ext k
  rw [coeff_mul_X_pow', coeff_toPoly, coeff_toPoly, BitVec.getLsbD_shiftLeft, BitVec.getLsbD_setWidth]
  by_cases hi : i ≤ k
  · by_cases hk : k < w
    · simp [hi, hk, show k - i < w by omega]
    · simp [hk, BitVec.getLsbD_of_ge c (k - i) (by omega)]
  · simp [hi, not_le.1 hi]

/-- A running exclusive-or of words is a sum of polynomials. -/
theorem toPoly_foldl_xor {w : Nat} (f : Nat → BitVec w) (n : Nat) :
    toPoly ((List.range n).foldl (fun c i => c ^^^ f i) 0) = ∑ i ∈ Finset.range n, toPoly (f i) := by
  induction n with
  | zero => exact toPoly_zero
  | succ n ih =>
    rw [List.range_succ, List.foldl_append, Finset.sum_range_succ, ← ih]
    exact toPoly_xor ..

/-- The carry-less product is the product of polynomials (R102). -/
@[simp] theorem toPoly_clmul (a b : Byte) : toPoly (clmul a b) = toPoly a * toPoly b := by
  rw [clmul_eq, toPoly_foldl_xor, toPoly.eq_1 b, Finset.mul_sum]
  refine Finset.sum_congr rfl fun i hi => ?_
  split
  · exact toPoly_shiftLeft a (by have := Finset.mem_range.1 hi; omega)
  · rw [mul_zero]; exact toPoly_zero

theorem clmul_comm (a b : Byte) : clmul a b = clmul b a :=
  toPoly_injective (by rw [toPoly_clmul, toPoly_clmul, mul_comm])

/-- The degree of a word's polynomial is the place of its highest set bit. -/
theorem natDegree_toPoly {w : Nat} (c : BitVec w) : (toPoly c).natDegree = c.toNat.log2 := by
  rcases eq_or_ne c 0#w with rfl | hc
  · simp
  · replace hc : c.toNat ≠ 0 := mt (BitVec.eq_of_toNat_eq (y := 0#w)) hc
    refine natDegree_eq_of_le_of_coeff_ne_zero (natDegree_le_iff_coeff_eq_zero.2 fun k hk => ?_) ?_
    · have hlt : c.toNat < 2 ^ k := Nat.lt_log2_self.trans_le (Nat.pow_le_pow_right (by decide) hk)
      simp [coeff_toPoly, BitVec.getLsbD, Nat.testBit_lt_two_pow hlt]
    · simp [coeff_toPoly, BitVec.getLsbD, Nat.testBit_log2 hc]

/-- The degree of a product of bytes is the sum of their degrees. -/
theorem log2_clmul {a b : Byte} (h : clmul a b ≠ 0) :
    (clmul a b).toNat.log2 = a.toNat.log2 + b.toNat.log2 := by
  have hab : toPoly a * toPoly b ≠ 0 := by
    rw [← toPoly_clmul]; exact fun h0 => h (toPoly_injective (h0.trans toPoly_zero.symm))
  rw [← natDegree_toPoly, toPoly_clmul, natDegree_mul (left_ne_zero_of_mul hab) (right_ne_zero_of_mul hab),
    natDegree_toPoly, natDegree_toPoly]

end Sys2Proof.Machine
end

section
/-! PROOF. The legal reduction polynomials are the irreducible ones (R5), by a sieve: of the polynomials of degree 8,
strike out every product of one of degree d = 1, 2, 3, 4 with one of degree 8 - d. -/

namespace Sys2Proof.Machine

/-- The carry-less product on natural numbers, with which the sieve computes. -/
def natClmul (a b : Nat) : Nat :=
  (List.range 8).foldl (fun c i => if b.testBit i then c ^^^ (a <<< i) else c) 0

theorem toNat_clmul (a b : Byte) : (clmul a b).toNat = natClmul a.toNat b.toNat := by
  refine List.foldl_rel (r := fun (c : BitVec 15) n => c.toNat = n) rfl fun i hi c n hc => ?_
  have hshift : (a.setWidth 15 <<< i).toNat = a.toNat <<< i := by
    have hi' : i ≤ 7 := by have := List.mem_range.1 hi; omega
    have hlt : a.toNat * 2 ^ i < 2 ^ 15 :=
      calc a.toNat * 2 ^ i < 2 ^ 8 * 2 ^ i := Nat.mul_lt_mul_of_pos_right a.isLt (by positivity)
        _ ≤ 2 ^ 8 * 2 ^ 7 := Nat.mul_le_mul_left _ (Nat.pow_le_pow_right (by decide) hi')
    rw [BitVec.toNat_shiftLeft, BitVec.toNat_setWidth_of_le (by decide), Nat.shiftLeft_eq, Nat.mod_eq_of_lt hlt]
  simp only [BitVec.getLsbD]
  split
  · rw [BitVec.toNat_xor, hc, hshift]
  · exact hc

/-- The numbers of the polynomials of degree d. -/
def ofDegree (d : Nat) : List Nat := List.range' (2 ^ d) (2 ^ d)

theorem mem_ofDegree_of_pos {d n : Nat} (hd : 0 < d) : n ∈ ofDegree d ↔ n.log2 = d := by
  rw [ofDegree, List.mem_range'_1, ← two_mul, ← pow_succ']
  rcases eq_or_ne n 0 with rfl | hn
  · simp [hd.ne]
  · exact (Nat.log2_eq_iff hn).symm

theorem log2_lt_eight (a : Byte) : a.toNat.log2 < 8 := by
  rcases eq_or_ne a.toNat 0 with h | h
  · simp [h]
  · exact (Nat.log2_lt h).2 a.isLt

/-- A positive degree below 8 is the degree of bytes only. -/
theorem mem_ofDegree {d n : Nat} (hd : 0 < d) (hd8 : d < 8) :
    n ∈ ofDegree d ↔ ∃ a : Byte, a.toNat = n ∧ a.toNat.log2 = d := by
  rw [mem_ofDegree_of_pos hd]
  constructor
  · rintro rfl
    have hn : n ≠ 0 := by rintro rfl; simp at hd
    have hlt : n < 2 ^ 8 := (Nat.log2_lt hn).1 hd8
    have he : (BitVec.ofNat 8 n).toNat = n := Nat.mod_eq_of_lt hlt
    exact ⟨BitVec.ofNat 8 n, he, by rw [he]⟩
  · rintro ⟨a, rfl, h⟩; exact h

/-- The products of a polynomial of degree d = 1, 2, 3, 4 and one of degree 8 - d. -/
def sieveProducts : List Nat :=
  (List.range' 1 4).flatMap fun d => (ofDegree d).flatMap fun a => (ofDegree (8 - d)).map (natClmul a)

/-- A list of numbers as one number whose set bits are the members: what makes the sieve cheap to compute. -/
def bitset (l : List Nat) : Nat := l.foldr (fun n m => 2 ^ n ||| m) 0

theorem testBit_bitset (l : List Nat) (n : Nat) : (bitset l).testBit n = decide (n ∈ l) := by
  induction l with
  | nil => simp [bitset]
  | cons a l ih =>
    change (2 ^ a ||| bitset l).testBit n = _
    simp [ih, Nat.testBit_two_pow, eq_comm]

/-- The sieve: the legal values are what the products leave of degree 8. -/
theorem bitset_legalPolys :
    bitset (Config.legalPolys.map (·.toNat)) = bitset (ofDegree 8) ^^^ bitset sieveProducts := by
  decide +kernel

theorem log2_of_degree_eight {p : BitVec 9} (h : p.getLsbD 8 = true) : p.toNat.log2 = 8 := by
  have hge : 2 ^ 8 ≤ p.toNat := Nat.ge_two_pow_of_testBit h
  exact (Nat.log2_eq_iff (by omega)).2 ⟨hge, p.isLt⟩

theorem mem_legalPolys_iff {p : BitVec 9} (h : p.getLsbD 8 = true) :
    p ∈ Config.legalPolys ↔ p.toNat ∉ sieveProducts := by
  have h8 : p.toNat ∈ ofDegree 8 := (mem_ofDegree_of_pos (by decide)).2 (log2_of_degree_eight h)
  have hbit : decide (p ∈ Config.legalPolys) = !decide (p.toNat ∈ sieveProducts) := by
    simpa [testBit_bitset, h8, BitVec.toNat_inj] using congrArg (Nat.testBit · p.toNat) bitset_legalPolys
  exact decide_eq_decide.1 (hbit.trans decide_not.symm)

theorem mem_sieveProducts {n : Nat} :
    n ∈ sieveProducts ↔ ∃ a b : Byte, a.toNat.log2 ≤ 4 ∧ a.toNat.log2 + b.toNat.log2 = 8 ∧
      (clmul a b).toNat = n := by
  constructor
  · intro h
    obtain ⟨d, hd, a, ha, b, hb, hn⟩ : ∃ d ∈ List.range' 1 4, ∃ a ∈ ofDegree d, ∃ b ∈ ofDegree (8 - d),
        natClmul a b = n := by simpa only [sieveProducts, List.mem_flatMap, List.mem_map] using h
    rw [List.mem_range'_1] at hd
    obtain ⟨a, rfl, ha⟩ := (mem_ofDegree (by omega) (by omega)).1 ha
    obtain ⟨b, rfl, hb⟩ := (mem_ofDegree (by omega) (by omega)).1 hb
    exact ⟨a, b, by omega, by omega, (toNat_clmul a b).trans hn⟩
  · rintro ⟨a, b, ha, hab, rfl⟩
    have hb : b.toNat.log2 < 8 := log2_lt_eight b
    simp only [sieveProducts, List.mem_flatMap, List.mem_map, List.mem_range'_1]
    refine ⟨a.toNat.log2, by omega, a.toNat, (mem_ofDegree (by omega) (by omega)).2 ⟨a, rfl, rfl⟩,
      b.toNat, (mem_ofDegree (by omega) (by omega)).2 ⟨b, rfl, by omega⟩, (toNat_clmul a b).symm⟩

/-- The sieve strikes out every product of two bytes: of two degrees that add up to 8, one is at most 4. -/
theorem mem_sieveProducts_iff {p : BitVec 9} (h : p.getLsbD 8 = true) :
    p.toNat ∈ sieveProducts ↔ ∃ a b : Byte, clmul a b = p.setWidth 15 := by
  have hp : (p.setWidth 15).toNat = p.toNat := BitVec.toNat_setWidth_of_le (by decide)
  rw [mem_sieveProducts]
  constructor
  · rintro ⟨a, b, -, -, hab⟩
    exact ⟨a, b, BitVec.eq_of_toNat_eq (hab.trans hp.symm)⟩
  · rintro ⟨a, b, hab⟩
    have h8 : (clmul a b).toNat.log2 = 8 := by rw [hab, hp, log2_of_degree_eight h]
    have hsum : a.toNat.log2 + b.toNat.log2 = 8 := by
      rw [← log2_clmul (fun h0 => by simp [h0] at h8), h8]
    rcases le_or_gt a.toNat.log2 4 with ha | ha
    · exact ⟨a, b, ha, hsum, by rw [hab, hp]⟩
    · exact ⟨b, a, by omega, by omega, by rw [clmul_comm, hab, hp]⟩

/-- Settles O17: the legal values are what the sieve leaves, and it strikes out the products of two bytes. -/
theorem legalPolynomialsAreTheIrreducibleOnes : Obligations.LegalPolynomialsAreTheIrreducibleOnes := by
  intro p
  constructor
  · intro hp
    have h8 := legalPolys_degree hp
    have hmem := mt (mem_sieveProducts_iff h8).2 ((mem_legalPolys_iff h8).1 hp)
    exact ⟨h8, fun a b hab => hmem ⟨a, b, hab⟩⟩
  · rintro ⟨h8, hirr⟩
    rw [mem_legalPolys_iff h8, mem_sieveProducts_iff h8]
    exact fun ⟨a, b, hab⟩ => hirr a b hab

end Sys2Proof.Machine
end

section
/-! PROOF. The window of host addresses (R8, R51): an access at an address is the access at the offset it resolves to. -/

namespace Sys2Proof.Machine

theorem unitBase_mod : Config.unitBase % 0x1000 = 0 := by
  unfold Config.unitBase Config.windowSize
  exact Nat.mul_mod_left ..

theorem performEvent_read_of_ok {tgt : Target} {off : Offset} (h : tgt.resolve = .ok off) (n : Nat) (s : State) :
    performEvent (.read tgt n) s = hostRead off n s := by simp only [performEvent, h]

theorem performEvent_write_of_ok {tgt : Target} {off : Offset} (h : tgt.resolve = .ok off) (n : Nat) (v : Word)
    (s : State) : performEvent (.write tgt n v) s = hostWrite off n v s := by simp only [performEvent, h]

theorem performEvent_read_of_error {tgt : Target} {r : Refusal} (h : tgt.resolve = .error r) (n : Nat)
    (s : State) : performEvent (.read tgt n) s = .refused r := by simp only [performEvent, h]

theorem performEvent_write_of_error {tgt : Target} {r : Refusal} (h : tgt.resolve = .error r) (n : Nat) (v : Word)
    (s : State) : performEvent (.write tgt n v) s = .refused r := by simp only [performEvent, h]

/-- Settles O58, by where an address of the window and one outside it resolve to. -/
theorem windowStandsAtUnitBase : Obligations.WindowStandsAtUnitBase :=
  ⟨unitBase_mod,
    fun off n s => performEvent_read_of_ok (Target.resolve_inside off) n s,
    fun off n v s => performEvent_write_of_ok (Target.resolve_inside off) n v s,
    fun _ n v s h => ⟨performEvent_read_of_error (Target.resolve_outside h) n s,
      performEvent_write_of_error (Target.resolve_outside h) n v s⟩⟩

end Sys2Proof.Machine
end

section
/-! PROOF. The next state of a command, once for all commands: what a failure and each kind of output leave
unchanged, and when STICKY changes (R26, R27, R30, R203). -/

namespace Sys2Proof.Machine

theorem StatusCode.toByte_ne_zero {c : StatusCode} (h : c ≠ .ok) : c.toByte ≠ 0 := by
  cases c with
  | ok => exact absurd rfl h
  | _ => decide

theorem StatusCode.toByte_le_seven (c : StatusCode) : c.toByte.toNat ≤ 7 := by
  cases c <;> decide

/-- A command's next state is a failure's, or its outputs with STATUS.CODE = 0 (R14). -/
theorem exec_next {i : Instr} {s t : State} (h : exec i s = .next t) :
    (∃ c : StatusCode, c ≠ .ok ∧ t = s.setStatus c.toByte true) ∨
    ∃ u, Output s i u ∧ t = u.setStatus 0 u.statusSticky := by
  rcases exec_answers i s with ⟨c, hc, e⟩ | ⟨b, j, -, -, e⟩ | ⟨u, hu, e⟩ <;> rw [e] at h
  · injection h with h
    exact .inl ⟨c, hc, h.symm⟩
  · cases h
  · injection h with h
    exact .inr ⟨u, hu, h.symm⟩

/-- A command of one class is in no class that shares no mnemonic with it. -/
theorem notMem_of_disjoint {x : Mnemonic} {l l' : List Mnemonic} (hx : x ∈ l)
    (hd : ∀ y ∈ l, y ∉ l' := by decide) : x ∉ l' := hd x hx

section Output

variable {s u : State} {i : Instr}

/-- The field commands and EVPT write RESULT (R115, R124). -/
theorem Output.of_result (hu : Output s i u)
    (h : i.mnemonic ∈ [.gadd, .gsub, .gmul, .gdiv, .gpow, .evpt]) : ∃ r, u = s.setResult r := by
  cases hu with
  | result _ r => exact ⟨r, rfl⟩
  | nop | clrs => exact absurd h (by decide)
  | config _ _ _ hm | codeword _ _ hm | message _ _ hm => exact absurd h (notMem_of_disjoint hm)

/-- The configuration commands write CONFIG (R122, R123). -/
theorem Output.of_config (hu : Output s i u) (h : i.mnemonic ∈ [.cfge, .cfgd]) :
    ∃ k n, u = s.setConfig k n := by
  cases hu with
  | config _ k n => exact ⟨k, n, rfl⟩
  | nop | clrs => exact absurd h (by decide)
  | result _ _ hm | codeword _ _ hm | message _ _ hm => exact absurd h (notMem_of_disjoint hm)

/-- NOP and CLRS write at most STATUS (R180, R181). -/
theorem Output.of_status (hu : Output s i u) (h : i.mnemonic ∈ [.nop, .clrs]) :
    ∃ c b, u = s.setStatus c b := by
  cases hu with
  | nop => exact ⟨s.statusCode, s.statusSticky, rfl⟩
  | clrs => exact ⟨s.statusCode, false, rfl⟩
  | result _ _ hm | config _ _ _ hm | codeword _ _ hm | message _ _ hm =>
    exact absurd h (notMem_of_disjoint hm)

/-- The encoders write CW[0..N-1] and CW_LEN (R143, R144). -/
theorem Output.of_codeword (hu : Output s i u) (h : i.mnemonic ∈ [.encv, .encc]) :
    ∃ c, c.length = s.configN.toNat ∧ u = (s.writeEntries .cw c).setCwLen s.configN := by
  cases hu with
  | codeword _ c _ _ hc => exact ⟨c, hc, rfl⟩
  | nop | clrs => exact absurd h (by decide)
  | result _ _ hm | config _ _ _ hm | message _ _ hm => exact absurd h (notMem_of_disjoint hm)

/-- The decoders write MSG[0..K-1] and MSG_LEN (R160, R161). -/
theorem Output.of_message (hu : Output s i u) (h : i.mnemonic ∈ [.dec, .decl]) :
    ∃ r, r.length = s.configK.toNat ∧ u = (s.writeEntries .msg r).setMsgLen s.configK := by
  cases hu with
  | message _ r _ _ hr => exact ⟨r, hr, rfl⟩
  | nop | clrs => exact absurd h (by decide)
  | result _ _ hm | config _ _ _ hm | codeword _ _ hm => exact absurd h (notMem_of_disjoint hm)

/-- Among the outputs only that of CLRS touches STICKY (R30). -/
theorem Output.statusSticky (hu : Output s i u) :
    u.statusSticky = if i = .clrs then false else s.statusSticky := by
  have hne : ∀ {l : List Mnemonic}, i.mnemonic ∈ l → .clrs ∉ l → i ≠ .clrs := by
    rintro l hi hl rfl
    exact hl hi
  cases hu with
  | nop | clrs => rfl
  | result _ _ hm | config _ _ _ hm | codeword _ _ hm | message _ _ hm =>
    exact (if_neg (hne hm (by decide))).symm

end Output

theorem State.readEntry_writeEntries_ne (s : State) {b b' : Buf} (h : b ≠ b') (vs : List Byte) (j : Nat) :
    (s.writeEntries b vs).readEntry b' j = s.readEntry b' j := by
  rw [State.readEntry_writeEntries, if_neg fun hb => h hb.1]

theorem State.readEntry_writeEntries_above (s : State) (b : Buf) {vs : List Byte} {j : Nat}
    (h : vs.length ≤ j) : (s.writeEntries b vs).readEntry b j = s.readEntry b j := by
  rw [State.readEntry_writeEntries, if_neg fun hb => absurd hb.2 (Nat.not_lt.2 h)]

/-- Settles O10, by the three ways a command answers. -/
theorem commandCompletesOrMeetsUnwrittenEntry : Obligations.CommandCompletesOrMeetsUnwrittenEntry := by
  intro i s
  rcases exec_answers i s with ⟨c, -, e⟩ | ⟨b, j, hi, hj, e⟩ | ⟨u, -, e⟩
  · exact .inl ⟨_, e⟩
  · refine .inr ⟨b, j, e, hj, ?_⟩
    cases i <;> simp [Instr.mnemonic] at hi ⊢
  · exact .inl ⟨_, e⟩

/-- Settles O51, by what each kind of register-only command outputs. -/
theorem registerCommandsFrame : Obligations.RegisterCommandsFrame := by
  intro i s t h
  rcases exec_next h with ⟨c, -, rfl⟩ | ⟨u, hu, rfl⟩
  · simp [SameConfig, SameLengths, SameBuffers, SameBuffer, SameHost]
  · refine ⟨fun hi => ?_, fun hi => ?_, fun hi => ?_⟩
    · obtain ⟨r, rfl⟩ := hu.of_result hi
      simp [SameConfig, SameLengths, SameBuffers, SameBuffer, SameHost]
    · obtain ⟨k, n, rfl⟩ := hu.of_config hi
      simp [SameLengths, SameBuffers, SameBuffer, SameHost]
    · obtain ⟨c, b, rfl⟩ := hu.of_status hi
      simp [SameConfig, SameLengths, SameBuffers, SameBuffer, SameHost]

/-- Settles O52: a codeword has N symbols, so the run of entries written ends before entry N. -/
theorem encodersFrame : Obligations.EncodersFrame := by
  intro i s t hi h
  have hm : i.mnemonic ∈ [Mnemonic.encv, .encc] := by rcases hi with rfl | rfl <;> decide
  rcases exec_next h with ⟨c, -, rfl⟩ | ⟨u, hu, rfl⟩
  · simp [SameConfig, SameBuffer, SameHost]
  · obtain ⟨c, hc, rfl⟩ := hu.of_codeword hm
    simp only [SameBuffer, State.readEntry_setStatus, State.readEntry_setCwLen]
    exact ⟨rfl, ⟨rfl, rfl, rfl⟩, rfl, rfl, s.readEntry_writeEntries_ne (by decide) c,
      s.readEntry_writeEntries_ne (by decide) c, s.readEntry_writeEntries_ne (by decide) c, ⟨rfl, rfl⟩,
      fun j hj => s.readEntry_writeEntries_above .cw (hc ▸ Nat.not_lt.1 hj)⟩

/-- Settles O53: a message has K symbols, so the run of entries written ends before entry K. -/
theorem decodersFrame : Obligations.DecodersFrame := by
  intro i s t hi h
  have hm : i.mnemonic ∈ [Mnemonic.dec, .decl] := by rcases hi with rfl | rfl <;> decide
  rcases exec_next h with ⟨c, -, rfl⟩ | ⟨u, hu, rfl⟩
  · simp [SameConfig, SameBuffer, SameHost]
  · obtain ⟨r, hr, rfl⟩ := hu.of_message hm
    simp only [SameBuffer, State.readEntry_setStatus, State.readEntry_setMsgLen]
    exact ⟨rfl, ⟨rfl, rfl, rfl⟩, rfl, rfl, s.readEntry_writeEntries_ne (by decide) r,
      s.readEntry_writeEntries_ne (by decide) r, s.readEntry_writeEntries_ne (by decide) r, ⟨rfl, rfl⟩,
      fun j hj => s.readEntry_writeEntries_above .msg (hr ▸ Nat.not_lt.1 hj)⟩

/-- CMD's word stands at offset 0x000 only (R52). -/
theorem eq_zero_of_regAt_cmd {off : Offset} (h : regAt off = some .cmd) : off = 0x000 := by
  by_contra h0
  rw [regAt, if_neg h0] at h
  split_ifs at h <;> cases h

theorem State.sameStatus_writeLength {s t : State} {r : Reg} {v : Word} (h : s.writeLength r v = some t) :
    SameStatus s t := by
  cases r with
  | msgLen | cwLen | shCnt => cases h; exact ⟨rfl, rfl⟩
  | cmd | status | result | config => cases h

/-- Settles O49: a failure sets STICKY, an output but CLRS's leaves it, and no other access writes STATUS. -/
theorem stickyIsSetByFailureClearedByClrs : Obligations.StickyIsSetByFailureClearedByClrs := by
  refine ⟨fun i s t h => ?_, fun off n s t h => ?_, fun off n v s t hoff h => ?_, fun s => rfl⟩
  · rcases exec_next h with ⟨c, hc, rfl⟩ | ⟨u, hu, rfl⟩
    · exact (if_pos (StatusCode.toByte_ne_zero hc)).symm
    · exact hu.statusSticky
  · rcases hostRead_cases off n s with ⟨_, w, -, -, -, e⟩ | ⟨_, _, v, -, -, -, e⟩ |
      ⟨_, _, -, -, -, e⟩ | ⟨-, -, e⟩ <;> rw [e] at h
    · cases h; exact ⟨rfl, rfl⟩
    · cases h; exact ⟨rfl, rfl⟩
    · cases h
    · cases h
  · rcases hostWrite_cases off n v s with ⟨-, hc, -⟩ | ⟨r, u, -, -, hw, e⟩ | ⟨b, j, -, -, e⟩ |
      ⟨-, -, e⟩
    · exact absurd (eq_zero_of_regAt_cmd hc) hoff
    · rw [e] at h
      cases h
      exact State.sameStatus_writeLength hw
    · rw [e] at h
      cases h
      simp [SameStatus]
    · rw [e] at h; cases h

end Sys2Proof.Machine
end

section
/-! PROOF. No command reads STATUS (R45): in two states that differ in STATUS alone, a command takes the same branch
and writes the same outputs. -/

namespace Sys2Proof.Machine

/-- Two answers of command `i`, the second from a state whose STICKY is `b`, are the same but for the STICKY bit
that a success leaves as it was (R45). -/
def AgreeButSticky (i : Instr) (b : Bool) : Answer → Answer → Prop
  | .next t, .next v =>
      v = { t with statusSticky := if t.statusCode ≠ 0 then true else if i = .clrs then false else b }
  | .fault f, .fault g => g = f
  | _, _ => False

@[simp] theorem State.gather_setStatus (s : State) (c : Byte) (b : Bool) (b' : Buf) (is : List Nat) :
    (s.setStatus c b).gather b' is = s.gather b' is := by
  induction is with
  | nil => rfl
  | cons j is ih => simp only [State.gather, State.readEntry_setStatus, ih]

/-- Tests of one condition take the same branch. -/
theorem agree_ite {i : Instr} {b : Bool} {p q : Prop} [Decidable p] [Decidable q] (hpq : p ↔ q)
    {x x' y y' : Answer} (hx : AgreeButSticky i b x x') (hy : AgreeButSticky i b y y') :
    AgreeButSticky i b (if p then x else y) (if q then x' else y') := by
  by_cases hp : p
  · rwa [if_pos hp, if_pos (hpq.1 hp)]
  · rwa [if_neg hp, if_neg (mt hpq.2 hp)]

section AgreeButSticky

variable {i : Instr} (s : State) (c : Byte) (b : Bool)

theorem agree_fail (x : StatusCode) (hx : x ≠ .ok) :
    AgreeButSticky i b (commandFail x s) (commandFail x (s.setStatus c b)) := by
  simp only [AgreeButSticky, commandFail, State.setStatus, if_pos (StatusCode.toByte_ne_zero hx)]

theorem agree_done (hi : i ≠ .clrs) :
    AgreeButSticky i b (commandDone s) (commandDone (s.setStatus c b)) := by
  simp [AgreeButSticky, commandDone, State.setStatus, hi, StatusCode.toByte]

theorem agree_configure (hi : i ≠ .clrs) (k : Byte) (n : Nat) :
    AgreeButSticky i b (configure k n s) (configure k n (s.setStatus c b)) :=
  agree_ite Iff.rfl (agree_done (s.setConfig k (BitVec.ofNat 8 n)) c b hi)
    (agree_fail s c b .configurationError (by decide))

theorem agree_withMessage {f g : List Byte → Answer} (h : ∀ m, AgreeButSticky i b (f m) (g m)) :
    AgreeButSticky i b (withMessage s f) (withMessage (s.setStatus c b) g) := by
  refine agree_ite Iff.rfl (agree_fail s c b .notConfigured (by decide))
    (agree_ite Iff.rfl (agree_fail s c b .invalidInputLength (by decide)) ?_)
  simp only [State.configK_setStatus, State.gather_setStatus]
  cases s.gather .msg (List.range s.configK.toNat) with
  | error f => rfl
  | ok m => exact h m

theorem agree_codewordDone (hi : i ≠ .clrs) (cs : List Byte) :
    AgreeButSticky i b (codewordDone cs s) (codewordDone cs (s.setStatus c b)) :=
  agree_done ((s.writeEntries .cw cs).setCwLen s.configN) c b hi

theorem agree_decodeFrom (hi : i ≠ .clrs) (is : List Nat) (ys : List Byte) :
    AgreeButSticky i b (decodeFrom is ys s) (decodeFrom is ys (s.setStatus c b)) := by
  simp only [decodeFrom, State.configK_setStatus]
  cases decodedMessage Config.gfPoly s.configK.toNat (points is) ys with
  | none => exact agree_fail s c b .divisionByZero (by decide)
  | some r => exact agree_done ((s.writeEntries .msg r).setMsgLen s.configK) c b hi

theorem agree_gdiv (x y : Byte) :
    AgreeButSticky (.gdiv x y) b (execGdiv x y s) (execGdiv x y (s.setStatus c b)) := by
  unfold execGdiv
  cases gfDiv Config.gfPoly x y with
  | none => exact agree_fail s c b .divisionByZero (by decide)
  | some r => exact agree_done (s.setResult r) c b (by simp)

theorem agree_evpt (idx : Byte) :
    AgreeButSticky (.evpt idx) b (execEvpt idx s) (execEvpt idx (s.setStatus c b)) :=
  agree_ite Iff.rfl (agree_fail s c b .notConfigured (by decide))
    (agree_ite Iff.rfl (agree_fail s c b .duplicateOrInvalidIndex (by decide))
      (agree_done (s.setResult (point idx.toNat)) c b (by simp)))

theorem agree_encv : AgreeButSticky .encv b (execEncv s) (execEncv (s.setStatus c b)) := by
  refine agree_withMessage s c b fun m => ?_
  simp only [State.configK_setStatus, State.configN_setStatus]
  cases valueCodeword Config.gfPoly s.configK.toNat s.configN.toNat m with
  | none => exact agree_fail s c b .divisionByZero (by decide)
  | some cs => exact agree_codewordDone s c b (by decide) cs

theorem agree_encc : AgreeButSticky .encc b (execEncc s) (execEncc (s.setStatus c b)) :=
  agree_withMessage s c b fun m =>
    agree_codewordDone s c b (by decide) (coeffCodeword Config.gfPoly s.configK.toNat s.configN.toNat m)

theorem agree_dec : AgreeButSticky .dec b (execDec s) (execDec (s.setStatus c b)) := by
  refine agree_ite Iff.rfl (agree_fail s c b .notConfigured (by decide))
    (agree_ite Iff.rfl (agree_fail s c b .insufficientShards (by decide)) ?_)
  simp only [State.shCnt_setStatus, State.gather_setStatus]
  cases s.gather .shIdx (List.range s.shCnt.toNat) with
  | error f => rfl
  | ok raw =>
    refine agree_ite Iff.rfl (agree_fail s c b .duplicateOrInvalidIndex (by decide))
      (agree_ite Iff.rfl (agree_fail s c b .duplicateOrInvalidIndex (by decide)) ?_)
    simp only [State.configK_setStatus]
    cases s.gather .shVal (selectEntries s.configK.toNat (raw.map BitVec.toNat)) with
    | error f => rfl
    | ok ys => exact agree_decodeFrom s c b (by decide) _ ys

theorem agree_decl : AgreeButSticky .decl b (execDecl s) (execDecl (s.setStatus c b)) := by
  refine agree_ite Iff.rfl (agree_fail s c b .notConfigured (by decide))
    (agree_ite Iff.rfl (agree_fail s c b .invalidInputLength (by decide)) ?_)
  simp only [State.configK_setStatus, State.configN_setStatus, State.gather_setStatus]
  cases s.gather .cw (lastPositions s.configK.toNat s.configN.toNat) with
  | error f => rfl
  | ok ys => exact agree_decodeFrom s c b (by decide) _ ys

/-- No command's answer depends on STATUS, but for the STICKY bit it keeps (R45). -/
theorem exec_setStatus (i : Instr) : AgreeButSticky i b (exec i s) (exec i (s.setStatus c b)) := by
  cases i with
  | nop => exact agree_done s c b (by decide)
  | clrs => rfl
  | gadd x y => exact agree_done (s.setResult (gfAdd x y)) c b (by simp)
  | gsub x y => exact agree_done (s.setResult (gfSub x y)) c b (by simp)
  | gmul x y => exact agree_done (s.setResult (gfMul Config.gfPoly x y)) c b (by simp)
  | gdiv x y => exact agree_gdiv s c b x y
  | gpow x e => exact agree_done (s.setResult (gfPow Config.gfPoly x e.toNat)) c b (by simp)
  | cfge k m => exact agree_configure s c b (by simp) k _
  | cfgd k m => exact agree_configure s c b (by simp) k _
  | evpt idx => exact agree_evpt s c b idx
  | encv => exact agree_encv s c b
  | encc => exact agree_encc s c b
  | dec => exact agree_dec s c b
  | decl => exact agree_decl s c b

end AgreeButSticky

/-- Settles O50, command by command: no branch of a command tests STATUS. -/
theorem noCommandReadsStatus : Obligations.NoCommandReadsStatus :=
  fun i s c b => exec_setStatus s c b i

end Sys2Proof.Machine
end

section
/-! PROOF. The invariant of every reachable state (R25, R33, R200): reset meets it and every step keeps it. -/

namespace Sys2Proof.Machine

theorem buffersInv_iff (s : State) : BuffersInv s ↔ ∀ b, (s.buf b).wf := by
  constructor
  · rintro ⟨hmsg, hcw, hidx, hval⟩ b
    cases b
    exacts [hmsg, hcw, hidx, hval]
  · exact fun h => ⟨h .msg, h .cw, h .shIdx, h .shVal⟩

theorem buffersInv_withBuf {s : State} (h : BuffersInv s) (b : Buf) {m : Memory} (hm : m.wf) :
    BuffersInv (s.withBuf b m) := by
  rw [buffersInv_iff] at h ⊢
  intro b'
  rw [State.buf_withBuf]
  split_ifs
  exacts [hm, h b']

theorem buffersInv_writeEntry {s : State} (h : BuffersInv s) (b : Buf) {j : Nat} (hj : j < Config.capacity)
    (v : Byte) : BuffersInv (s.writeEntry b j v) :=
  buffersInv_withBuf h b (Memory.wf_store ((buffersInv_iff s).1 h b) hj v)

theorem buffersInv_writeEntries {s : State} (h : BuffersInv s) (b : Buf) {vs : List Byte}
    (hvs : vs.length ≤ Config.capacity) : BuffersInv (s.writeEntries b vs) :=
  buffersInv_withBuf h b (Memory.wf_storeAll ((buffersInv_iff s).1 h b) vs (by omega))

/-- A count of symbols held in a byte fits a buffer (R7). -/
theorem length_le_capacity {vs : List Byte} {n : Byte} (h : vs.length = n.toNat) :
    vs.length ≤ Config.capacity := by
  have hn := n.isLt
  unfold Config.capacity
  omega

/-- A command's outputs leave the configuration legal or absent and the buffers canonical. -/
theorem Output.keepsInv {s u : State} {i : Instr} (hu : Output s i u) (hc : ConfigInv s) (hb : BuffersInv s) :
    ConfigInv u ∧ BuffersInv u := by
  cases hu with
  | nop => exact ⟨hc, hb⟩
  | clrs => exact ⟨hc, hb⟩
  | result _ r => exact ⟨hc, hb⟩
  | config _ k n _ hk hn => exact ⟨.inr ⟨rfl, hk, hn⟩, hb⟩
  | codeword _ c _ _ hlen => exact ⟨hc, buffersInv_writeEntries hb .cw (length_le_capacity hlen)⟩
  | message _ r _ _ hlen => exact ⟨hc, buffersInv_writeEntries hb .msg (length_le_capacity hlen)⟩

/-- A failure keeps the invariant: it writes STATUS alone, one of the codes of R200 beside STICKY = 1. -/
theorem inv_setStatus_failure {s : State} (h : Inv s) (c : StatusCode) : Inv (s.setStatus c.toByte true) := by
  obtain ⟨hc, -, hb⟩ := h
  exact ⟨hc, ⟨c.toByte_le_seven, fun _ => rfl⟩, hb⟩

theorem exec_keepsInv {i : Instr} {s t : State} (hs : Inv s) (h : exec i s = .next t) : Inv t := by
  rcases exec_next h with ⟨c, -, rfl⟩ | ⟨u, hu, rfl⟩
  · exact inv_setStatus_failure hs c
  · obtain ⟨hc, -, hb⟩ := hs
    obtain ⟨hc', hb'⟩ := hu.keepsInv hc hb
    exact ⟨hc', ⟨Nat.zero_le 7, fun h0 => absurd rfl h0⟩, hb'⟩

theorem execWord_keepsInv {w : Word} {s t : State} (hs : Inv s) (h : execWord w s = .next t) : Inv t := by
  rcases execWord_cases w s with ⟨i, -, e⟩ | ⟨x, -, e⟩ <;> rw [e] at h
  · exact exec_keepsInv hs h
  · injection h with h
    exact h ▸ inv_setStatus_failure hs .illegalCommand

theorem inv_writeEntry {s : State} (h : Inv s) (b : Buf) {j : Nat} (hj : j < Config.capacity) (v : Byte) :
    Inv (s.writeEntry b j v) := by
  obtain ⟨hc, hst, hb⟩ := h
  have hb' := buffersInv_writeEntry hb b hj v
  cases b <;> exact ⟨hc, hst, hb'⟩

theorem inv_reset : Inv State.reset :=
  ⟨.inl ⟨rfl, rfl, rfl⟩, ⟨by decide, fun h => absurd rfl h⟩, by simp [Memory.wf, State.reset]⟩

/-- Every event of the host keeps the invariant. -/
theorem performEvent_keepsInv {e : HostEvent} {s t : State} (hs : Inv s) (h : performEvent e s = .next t) :
    Inv t := by
  rcases performEvent_next h with ⟨-, rfl⟩ | ⟨w, rfl⟩ | ⟨v, rfl | rfl | rfl⟩ | ⟨b, j, v, hj, rfl⟩ |
    ⟨-, -, w, -, -, -, hw⟩
  · exact inv_reset
  · exact hs
  · exact hs
  · exact hs
  · exact hs
  · exact inv_writeEntry hs b hj v
  · exact execWord_keepsInv hs hw

/-- Settles O59: after reset CONFIG is absent, STATUS is zero and no buffer entry is written. -/
theorem resetMeetsInvariant : Obligations.ResetMeetsInvariant := inv_reset

/-- Settles O60: an idle step changes nothing, and every event of the host keeps the invariant. -/
theorem stepKeepsInvariant : Obligations.StepKeepsInvariant := by
  intro s t hs h
  rcases step_cases s with ⟨-, e⟩ | ⟨ev, rest, -, e⟩ <;> rw [e] at h
  · injection h with h
    exact h ▸ hs
  · have hs' : Inv (s.setPending rest) := hs
    exact performEvent_keepsInv hs' h

end Sys2Proof.Machine
end

section
/-! PROOF. Accesses to the window: the CMD write as a command (R38, R90), the words of the registers (R28 to
R37), and the entries of the buffers (R27, R52). -/

namespace Sys2Proof.Machine

theorem step_of_pending {s : State} {e : HostEvent} {rest : List HostEvent} (h : s.pending = e :: rest) :
    step s = performEvent e (s.setPending rest) := by
  simp only [step, performNext, h]

theorem performEvent_cmdWrite (w : Word) (s : State) :
    performEvent (.write (.window 0x000) 4 w) s = execWord w s := rfl

/-- A full word of the opcode table is itself. -/
theorem tableWord_toNat (w : Word) : tableWord 32 w.toNat = w := by
  rw [tableWord, Nat.mod_eq_of_lt w.isLt, BitVec.ofNat_toNat, BitVec.setWidth_eq]

/-- Settles O7, by the two ways a word written to CMD decodes. -/
theorem stepRunsDecodedCommand : Obligations.StepRunsDecodedCommand := by
  refine ⟨fun s w rest h => ?_, fun s w => ?_⟩
  · rw [step_of_pending h, performEvent_cmdWrite]
    constructor
    · intro i hi
      simp only [execWord, hi]
    · intro e he
      simp only [execWord, he]
      rfl
  · show commandEvent (tableWord 32 w.toNat) :: s.pending = _
    rw [tableWord_toNat]
    rfl

/-- Two fields of a word that do not overlap add up: `hi` stands at bit `k`, above `lo`. -/
theorem toNat_or_shiftLeft {lo hi : Word} {k : Nat} (hlo : lo.toNat < 2 ^ k) (hhi : hi.toNat * 2 ^ k < 2 ^ 32) :
    (lo ||| hi <<< k).toNat = lo.toNat + 2 ^ k * hi.toNat := by
  rw [BitVec.toNat_or, BitVec.toNat_shiftLeft, Nat.shiftLeft_eq, Nat.mod_eq_of_lt hhi, Nat.or_comm,
    ← Nat.shiftLeft_eq, ← Nat.shiftLeft_add_eq_or_of_lt hlo, Nat.shiftLeft_eq, Nat.mul_comm, Nat.add_comm]

theorem toNat_byteWord (v : Byte) : (byteWord v).toNat = v.toNat :=
  BitVec.toNat_setWidth_of_le (by decide)

theorem toNat_flagWord (b : Bool) : ((BitVec.ofBool b).setWidth 32).toNat = b.toNat := by
  cases b <;> rfl

theorem toNat_statusWord (s : State) :
    s.statusWord.toNat = s.statusCode.toNat + 2 ^ 8 * s.statusSticky.toNat := by
  have hc := toNat_byteWord s.statusCode
  have hs := toNat_flagWord s.statusSticky
  have hlt := s.statusCode.isLt
  have hb := s.statusSticky.toNat_lt
  unfold byteWord at hc
  rw [State.statusWord, toNat_or_shiftLeft (by omega) (by omega), hc, hs]

theorem toNat_configWord (s : State) :
    s.configWord.toNat = s.configK.toNat + 2 ^ 8 * s.configN.toNat + 2 ^ 16 * s.configValid.toNat := by
  have hk := toNat_byteWord s.configK
  have hn := toNat_byteWord s.configN
  have hv := toNat_flagWord s.configValid
  have hklt := s.configK.isLt
  have hnlt := s.configN.isLt
  have hb := s.configValid.toNat_lt
  unfold byteWord at hk hn
  have hkn := toNat_or_shiftLeft (lo := s.configK.setWidth 32) (hi := s.configN.setWidth 32) (k := 8)
    (by omega) (by omega)
  rw [State.configWord, toNat_or_shiftLeft (by omega) (by omega), hkn, hk, hn, hv]

theorem lowByte_eq_extractLsb' (v : Word) : lowByte v = v.extractLsb' 0 8 :=
  BitVec.setWidth_eq_extractLsb' (by decide)

/-- Settles O54, by the words of the registers and the byte that a length register keeps. -/
theorem registerAccessesMoveFields : Obligations.RegisterAccessesMoveFields := by
  refine ⟨fun s => ⟨⟨_, rfl, toNat_statusWord s⟩, ⟨_, rfl, toNat_byteWord s.result⟩,
    ⟨_, rfl, toNat_configWord s⟩, ⟨_, rfl, toNat_byteWord s.msgLen⟩, ⟨_, rfl, toNat_byteWord s.cwLen⟩,
    ⟨_, rfl, toNat_byteWord s.shCnt⟩⟩, fun v s => ?_⟩
  rw [← lowByte_eq_extractLsb']
  exact ⟨rfl, rfl, rfl⟩

/-- A buffer's entries fill one 256-byte page of the window (R52). -/
theorem Buf.base_eq_page (b : Buf) : ∃ page, page ≤ 4 ∧ b.base = 256 * page ∧ bufAtPage page = some b := by
  cases b
  exacts [⟨1, by decide⟩, ⟨2, by decide⟩, ⟨3, by decide⟩, ⟨4, by decide⟩]

/-- Entry `i` of a buffer stands at its offset (R52, R92). -/
theorem entryAt_offset (b : Buf) {i : Nat} (hi : i < 255) : entryAt (b.offset i) = some (b, i) := by
  obtain ⟨page, hp, hbase, hbuf⟩ := b.base_eq_page
  have hoff : (b.offset i).toNat = 256 * page + i := by
    rw [Buf.offset, BitVec.toNat_ofNat, hbase, Nat.mod_eq_of_lt (by omega)]
  have hmod : (256 * page + i) % 256 = i := by omega
  have hdiv : (256 * page + i) / 256 = page := by omega
  rw [entryAt, hoff, hmod, hdiv, hbuf, if_pos (show i < Config.capacity from hi)]
  rfl

theorem hostRead_entry (b : Buf) {i : Nat} (hi : i < 255) (s : State) :
    hostRead (b.offset i) 1 s =
      (s.readEntry b i).elim (.fault (.unwrittenRead b i)) fun v => .next (s.pushRead (byteWord v)) := by
  simp only [hostRead, entryAt_offset b hi]
  cases s.readEntry b i <;> rfl

/-- Settles O57, by the entry that stands at the offset read. -/
theorem unwrittenEntryReadFaults : Obligations.UnwrittenEntryReadFaults := by
  intro b i s hi
  have hread := hostRead_entry b hi s
  refine ⟨fun h => hread.trans ?_, fun v h => hread.trans ?_⟩
  · rw [h]; rfl
  · rw [h]; rfl

end Sys2Proof.Machine
end

section
/-! PROOF. Which accesses the window admits (R53 to R57), a buffer entry written and read back (R59), the host's
next event as a step (R51, R183), and a word's byte lanes (R58). -/

namespace Sys2Proof.Machine

theorem regAt_eq_some {off : Offset} {r : Reg} : regAt off = some r ↔ off = r.offset := by
  constructor
  · intro h
    unfold regAt at h
    split_ifs at h with h0 h4 h8 hC h10 h14 h18 <;> cases h <;> assumption
  · rintro rfl
    cases r <;> rfl

/-- The offsets of some registers are where one of their words stands. -/
theorem mem_map_offset {off : Offset} {l : List Reg} :
    off.toNat ∈ l.map (·.offset.toNat) ↔ ∃ r ∈ l, regAt off = some r := by
  simp only [List.mem_map, regAt_eq_some, BitVec.toNat_inj, eq_comm (a := off)]

theorem bufAtPage_ne_none {page : Nat} : bufAtPage page ≠ none ↔ 1 ≤ page ∧ page ≤ 4 := by
  constructor
  · intro h
    by_contra hp
    refine h ?_
    rw [bufAtPage, if_neg (by omega), if_neg (by omega), if_neg (by omega), if_neg (by omega)]
  · rintro ⟨h1, h4⟩
    interval_cases page <;> decide

/-- Entries stand in the pages 0x100 to 0x4FF of the window, at every offset of a page but its last (R52). -/
theorem entryAt_ne_none {off : Offset} :
    entryAt off ≠ none ↔ 0x100 ≤ off.toNat ∧ off.toNat < 0x500 ∧ off.toNat % 0x100 ≠ 0xFF := by
  have hpage := bufAtPage_ne_none (page := off.toNat / 256)
  rw [entryAt]
  split_ifs with h <;> unfold Config.capacity at h
  · rw [Ne, Option.map_eq_none_iff, ← Ne, hpage]
    omega
  · simp only [ne_eq, not_true_eq_false, false_iff]
    omega

/-- The registers the host may read: all but CMD (R53, R56). -/
def readableRegs : List Reg := [.status, .result, .config, .msgLen, .cwLen, .shCnt]

/-- The registers the host may write: CMD and the length registers (R53, R56). -/
def writableRegs : List Reg := [.cmd, .msgLen, .cwLen, .shCnt]

theorem mem_readableRegs {r : Reg} : r ∈ readableRegs ↔ r ≠ .cmd := by cases r <;> decide

theorem mem_writableRegs {r : Reg} : r ∈ writableRegs ↔ ¬ (r = .status ∨ r = .result ∨ r = .config) := by
  cases r <;> decide

theorem readAdmitted_iff {off : Offset} {n : Nat} :
    readAdmitted off n ↔ (n = 4 ∧ ∃ r ∈ readableRegs, regAt off = some r) ∨ (n = 1 ∧ entryAt off ≠ none) := by
  rw [← mem_map_offset, entryAt_ne_none]
  rfl

theorem writeAdmitted_iff {off : Offset} {n : Nat} :
    writeAdmitted off n ↔ (n = 4 ∧ ∃ r ∈ writableRegs, regAt off = some r) ∨ (n = 1 ∧ entryAt off ≠ none) := by
  rw [← mem_map_offset, entryAt_ne_none]
  rfl

theorem hostRead_eq_busFault {off : Offset} {n : Nat} {s : State} :
    hostRead off n s = .fault (.busFault off) ↔ ¬ readAdmitted off n := by
  rw [readAdmitted_iff]
  rcases hostRead_cases off n s with ⟨r, w, hn, hr, hw, e⟩ | ⟨b, i, v, hn, he, -, e⟩ | ⟨b, i, hn, he, -, e⟩ |
    ⟨hreg, hent, e⟩ <;> rw [e]
  · have hcmd : r ≠ .cmd := by rintro rfl; cases hw
    exact iff_of_false nofun (not_not.2 (.inl ⟨hn, r, mem_readableRegs.2 hcmd, hr⟩))
  · exact iff_of_false nofun (not_not.2 (.inr ⟨hn, by simp [he]⟩))
  · exact iff_of_false nofun (not_not.2 (.inr ⟨hn, by simp [he]⟩))
  · refine iff_of_true rfl ?_
    rintro (⟨hn, r, hr, hoff⟩ | ⟨hn, hne⟩)
    · exact mem_readableRegs.1 hr (hreg hn r hoff)
    · exact hne (hent hn)

/-- A word written to CMD is no BusFault, whatever it decodes to (R90). -/
theorem execWord_ne_busFault (w : Word) (s : State) (off : Offset) :
    execWord w s ≠ .fault (.busFault off) := by
  rcases execWord_cases w s with ⟨i, -, e⟩ | ⟨x, -, e⟩
  · rcases exec_answers i s with ⟨c, -, e'⟩ | ⟨b, j, -, -, e'⟩ | ⟨t, -, e'⟩ <;> rw [e, e'] <;> exact nofun
  · rw [e]; exact nofun

theorem hostWrite_eq_busFault {off : Offset} {n : Nat} {v : Word} {s : State} :
    hostWrite off n v s = .fault (.busFault off) ↔ ¬ writeAdmitted off n := by
  rw [writeAdmitted_iff]
  rcases hostWrite_cases off n v s with ⟨hn, hr, e⟩ | ⟨r, t, hn, hr, hw, e⟩ | ⟨b, i, hn, he, e⟩ |
    ⟨hreg, hent, e⟩ <;> rw [e]
  · exact iff_of_false (execWord_ne_busFault v s off) (not_not.2 (.inl ⟨hn, .cmd, by decide, hr⟩))
  · have hmem : r ∈ writableRegs := mem_writableRegs.2 (by rintro (rfl | rfl | rfl) <;> cases hw)
    exact iff_of_false nofun (not_not.2 (.inl ⟨hn, r, hmem, hr⟩))
  · exact iff_of_false nofun (not_not.2 (.inr ⟨hn, by simp [he]⟩))
  · refine iff_of_true rfl ?_
    rintro (⟨hn, r, hr, hoff⟩ | ⟨hn, hne⟩)
    · exact mem_writableRegs.1 hr (hreg hn r hoff)
    · exact hne (hent hn)

/-- Settles O56, by the places whose accesses answer something else. -/
theorem inadmissibleAccessIsBusFault : Obligations.InadmissibleAccessIsBusFault :=
  ⟨fun _ _ _ => hostRead_eq_busFault, fun _ _ _ _ => hostWrite_eq_busFault⟩

theorem hostWrite_entry (b : Buf) {i : Nat} (hi : i < 255) (v : Word) (s : State) :
    hostWrite (b.offset i) 1 v s = .next (s.writeEntry b i (lowByte v)) := by
  rw [hostWrite, if_neg (by decide), if_pos rfl, entryAt_offset b hi]

/-- A word's low byte, as a word again, is the word without its upper bits. -/
theorem byteWord_lowByte (v : Word) : byteWord (lowByte v) = v &&& 0xFF := by
  apply BitVec.eq_of_toNat_eq
  rw [toNat_byteWord, lowByte, BitVec.toNat_setWidth, BitVec.toNat_and]
  exact (Nat.and_two_pow_sub_one_eq_mod v.toNat 8).symm

/-- Settles O55, by the entry at the offset and the rule of reading an entry after a write. -/
theorem bufferWriteIsReadBack : Obligations.BufferWriteIsReadBack := by
  intro b i v s hi
  have hsame : (s.writeEntry b i (lowByte v)).readEntry b i = some (lowByte v) := by
    rw [State.readEntry_writeEntry, if_pos ⟨rfl, rfl⟩]
  refine ⟨s.writeEntry b i (lowByte v), hostWrite_entry b hi v s, ?_, fun b' j hne => ?_, ?_, ?_⟩
  · rw [← byteWord_lowByte]
    refine (hostRead_entry b hi _).trans ?_
    rw [hsame]
    rfl
  · rw [State.readEntry_writeEntry, if_neg]
    rintro ⟨rfl, rfl⟩
    exact hne rfl
  · rw [hsame, lowByte_eq_extractLsb']
  · simp [SameStatus, SameConfig, SameLengths, SameHost]

/-- Settles O8, by the event at the head of the list and where its target resolves to. -/
theorem stepPerformsNextHostEvent : Obligations.StepPerformsNextHostEvent := by
  refine ⟨fun s e rest h => step_of_pending h, ?_, ?_, ?_, fun s rest h => step_of_pending h, ?_⟩
  · rintro s off n rest (h | h) <;> rw [step_of_pending h]
    · rfl
    · exact performEvent_read_of_ok (Target.resolve_inside off) n _
  · rintro s off n v rest (h | h) <;> rw [step_of_pending h]
    · rfl
    · exact performEvent_write_of_ok (Target.resolve_inside off) n v _
  · rintro s a n v rest ha (h | h) <;> rw [step_of_pending h]
    · exact performEvent_read_of_error (Target.resolve_outside ha) n _
    · exact performEvent_write_of_error (Target.resolve_outside ha) n v _
  · intro s h
    simp only [step, performNext, h]

theorem getLsbD_laneByte (w : Word) (j : Nat) {i : Nat} (hi : i < 8) :
    (laneByte w j).getLsbD i = w.getLsbD (8 * j + i) := by
  simp [laneByte, hi]

/-- Four lanes that follow one another are the word of their bytes. -/
theorem wordOfLanes_laneByte (w : Word) :
    wordOfLanes (laneByte w 0) (laneByte w 1) (laneByte w 2) (laneByte w 3) = w := by
  ext i hi
  interval_cases i <;> simp [wordOfLanes, laneByte]

/-- Settles O5, bit by bit. -/
theorem wordLanesAreLittleEndian : Obligations.WordLanesAreLittleEndian :=
  ⟨fun w j _ _ hi => getLsbD_laneByte w j hi, wordOfLanes_laneByte⟩

end Sys2Proof.Machine
end

section
/-! PROOF. The command word (R82 to R87): a word is legal for a mnemonic when it carries the mnemonic's opcode and
no bit above the operands of its format, and then it is the word of the command it decodes to. -/

namespace Sys2Proof

/-- How many bits of a word the opcode and the operands of a format take up (R82). The bits above are reserved. -/
def Format.usedBits : Format → Nat
  | .z => 8
  | .r2 | .cf => 24
  | .pw => 32
  | .ix => 16

/-- The mask checks OP and the bits above the operands (R85). -/
theorem Format.mask_opcode (f : Format) : f.mask &&& 0x000000FF = 0x000000FF := by
  cases f <;> rfl

theorem Format.mask_reserved (f : Format) : f.mask &&& 0xFFFFFF00 = BitVec.allOnes 32 <<< f.usedBits := by
  cases f <;> rfl

/-- The reserved bits of a word are clear iff nothing is left above its operands (R85, R87). -/
theorem reservedBits_eq_zero_iff (f : Format) (w : Word) :
    w &&& f.mask &&& 0xFFFFFF00 = 0 ↔ w >>> f.usedBits = 0 := by
  rw [BitVec.and_assoc, f.mask_reserved, ← BitVec.shiftLeft_ushiftRight]
  constructor
  · intro h
    ext i hi
    have hbit := congrArg (·.getLsbD (f.usedBits + i)) h
    rw [BitVec.getElem_ushiftRight]
    by_cases hlt : f.usedBits + i < 32
    · simpa [hlt] using hbit
    · simp [BitVec.getLsbD_of_ge _ _ (Nat.le_of_not_lt hlt)]
  · intro h
    simp [h]

theorem and_opcodeMask (w : Word) : w &&& 0x000000FF = (w.setWidth 8).setWidth 32 := by
  ext i hi
  interval_cases i <;> simp

/-- A word is legal for a mnemonic iff OP is the mnemonic's opcode and no reserved bit is set (R85, R86). -/
theorem legal_iff_reservedBits (x : Mnemonic) (w : Word) :
    x.legal w ↔ x.opcode = w.setWidth 8 ∧ w &&& x.format.mask &&& 0xFFFFFF00 = 0 := by
  constructor
  · intro h
    refine ⟨?_, ?_⟩
    · rw [opcode_of_legal h, BitVec.setWidth_eq_extractLsb' (by decide)]
    · rw [show w &&& x.format.mask = x.matchValue from h]
      cases x <;> rfl
  · rintro ⟨hop, hres⟩
    calc w &&& x.format.mask
        = w &&& x.format.mask &&& (0x000000FF ||| 0xFFFFFF00) := by
          rw [show (0x000000FF ||| 0xFFFFFF00 : Word) = BitVec.allOnes 32 from rfl, BitVec.and_allOnes]
      _ = w &&& x.format.mask &&& 0x000000FF := by rw [BitVec.and_or_distrib_left, hres]; exact BitVec.or_zero
      _ = (w.setWidth 8).setWidth 32 := by rw [BitVec.and_assoc, x.format.mask_opcode, and_opcodeMask]
      _ = x.matchValue := by rw [← hop, Mnemonic.matchValue]

theorem legal_iff (x : Mnemonic) (w : Word) :
    x.legal w ↔ x.opcode = w.setWidth 8 ∧ w >>> x.format.usedBits = 0 := by
  rw [legal_iff_reservedBits, reservedBits_eq_zero_iff]

/-- No two mnemonics have the same opcode (R84). -/
theorem Mnemonic.opcode_injective : Function.Injective Mnemonic.opcode := fun x y h => by
  have hx := find_opcode x
  rw [h, find_opcode y] at hx
  exact (Option.some.inj hx).symm

/-- The laws of the single commands, for any command. -/
theorem legality : ∀ i : Instr, Laws.Legality.Statement i
  | .nop => Laws.Legality.nop
  | .gadd a b => Laws.Legality.gadd a b
  | .gsub a b => Laws.Legality.gsub a b
  | .gmul a b => Laws.Legality.gmul a b
  | .gdiv a b => Laws.Legality.gdiv a b
  | .gpow a e => Laws.Legality.gpow a e
  | .clrs => Laws.Legality.clrs
  | .cfge k m => Laws.Legality.cfge k m
  | .cfgd k m => Laws.Legality.cfgd k m
  | .evpt idx => Laws.Legality.evpt idx
  | .encv => Laws.Legality.encv
  | .encc => Laws.Legality.encc
  | .dec => Laws.Legality.dec
  | .decl => Laws.Legality.decl

theorem legal_encode (i : Instr) : i.mnemonic.legal (encode i) := (legality i).2

theorem wellFormed_toAsm (i : Instr) : i.toAsm.wellFormed = true := (legality i).1

theorem command_encode (i : Instr) :
    i.mnemonic.command ((encode i).extractLsb' 8 8) ((encode i).extractLsb' 16 8) ((encode i).extractLsb' 16 16) =
      i := by
  cases i <;> simp [Instr.mnemonic, Mnemonic.command, encode, encodePair_fields, encodePw_fields, encodeIx_fields]

theorem decode_encode (i : Instr) : decode (encode i) = .ok i := by
  rw [decode_of_legal (legal_encode i), command_encode]

/-- A legal word is the word of its mnemonic's command with the operands read from it (R82, R83). -/
theorem encode_command {x : Mnemonic} {w : Word} (h : x.legal w) :
    encode (x.command (w.extractLsb' 8 8) (w.extractLsb' 16 8) (w.extractLsb' 16 16)) = w := by
  have hres := ((legal_iff x w).mp h).2
  have hop := opcode_of_legal h
  cases x with
  | nop | clrs | encv | encc | dec | decl => exact (congrArg encodeZ hop).trans (encodeZ_of_fields hres)
  | gadd | gsub | gmul | gdiv | cfge | cfgd =>
    exact (congrArg (encodePair · _ _) hop).trans (encodePair_of_fields hres)
  | gpow => exact (congrArg (encodePw · _ _) hop).trans (encodePw_of_fields w)
  | evpt => exact (congrArg (encodeIx · _) hop).trans (encodeIx_of_fields hres)

/-- Settles O1: a command's word is legal for its mnemonic, and a legal word is made of its fields. -/
theorem decodeAndEncodeAreInverse : Obligations.DecodeAndEncodeAreInverse := by
  refine ⟨decode_encode, fun w i h => ?_⟩
  obtain ⟨x, -, hx, rfl⟩ := decode_eq_ok h
  exact encode_command hx

/-- What a word with an assigned opcode decodes to: one line of the decode function (R87). -/
theorem decode_of_opcode {x : Mnemonic} {w : Word} (h : w.setWidth 8 = x.opcode) :
    decode w = if w >>> x.format.usedBits = 0 then
      .ok (x.command (w.extractLsb' 8 8) (w.extractLsb' 16 8) (w.extractLsb' 16 16)) else .error .reservedBits := by
  have hl : x.legal w ↔ w >>> x.format.usedBits = 0 := by simp [legal_iff, h]
  unfold decode
  rw [← BitVec.setWidth_eq_extractLsb' (by decide), h, find_opcode]
  simp only [hl]

theorem decode_of_unassigned {w : Word} (h : ∀ x : Mnemonic, x.opcode ≠ w.setWidth 8) :
    decode w = .error .unassignedOpcode := by
  have hf : Mnemonic.all.find? (fun x => x.opcode == w.extractLsb' 0 8) = none := by
    rw [← BitVec.setWidth_eq_extractLsb' (by decide)]
    simp [h]
  unfold decode
  rw [hf]

theorem opcode_mem (x : Mnemonic) : x.opcode ∈ Mnemonic.all.map Mnemonic.opcode := by
  cases x <;> decide

/-- Settles O2: each line is the decoding of its mnemonic's opcode. -/
theorem decodeFollowsTheDecodeFunction : Obligations.DecodeFollowsTheDecodeFunction := fun _ =>
  ⟨decode_of_opcode (x := .nop), decode_of_opcode (x := .gadd), decode_of_opcode (x := .gsub),
    decode_of_opcode (x := .gmul), decode_of_opcode (x := .gdiv),
    fun h => (decode_of_opcode (x := .gpow) h).trans (if_pos (BitVec.ushiftRight_eq_zero le_rfl)),
    decode_of_opcode (x := .clrs), decode_of_opcode (x := .cfge), decode_of_opcode (x := .cfgd),
    decode_of_opcode (x := .evpt), decode_of_opcode (x := .encv), decode_of_opcode (x := .encc),
    decode_of_opcode (x := .dec), decode_of_opcode (x := .decl),
    fun h => decode_of_unassigned fun x hx => h (hx ▸ opcode_mem x)⟩

/-- Settles O4: each legal word is the word of its command, and the others set a reserved bit or name no
mnemonic. -/
theorem specWordsDecode : Obligations.SpecWordsDecode :=
  ⟨decode_encode .nop, decode_encode (.gadd 0x53 0xCA), decode_encode (.gsub 0x99 0xCA),
    decode_encode (.gmul 0x10 0x08), decode_encode (.gdiv 0x55 0x0F), decode_encode (.gpow 0x02 256),
    decode_encode .clrs, decode_encode (.cfge 6 12), decode_encode (.cfgd 2 4), decode_encode (.evpt 17),
    decode_encode .encv, decode_encode .encc, decode_encode .dec, decode_encode .decl,
    decode_of_opcode (x := .gadd) rfl, decode_of_opcode (x := .evpt) rfl,
    decode_of_unassigned fun x => by cases x <;> decide⟩

/-- The two causes of an illegal word (R86): two mnemonics cannot share the opcode, so the reserved bits of one
decide. -/
theorem forall_not_legal_iff (w : Word) : (∀ x : Mnemonic, ¬ x.legal w) ↔
    (∀ x : Mnemonic, x.opcode ≠ w.setWidth 8) ∨
      ∃ x : Mnemonic, x.opcode = w.setWidth 8 ∧ w &&& x.format.mask &&& 0xFFFFFF00 ≠ 0 := by
  simp only [legal_iff_reservedBits]
  constructor
  · intro h
    by_cases hx : ∃ x : Mnemonic, x.opcode = w.setWidth 8
    · obtain ⟨x, hop⟩ := hx
      exact .inr ⟨x, hop, fun hres => h x ⟨hop, hres⟩⟩
    · exact .inl (not_exists.mp hx)
  · rintro (h | ⟨x, hop, hres⟩) y ⟨hy, hyres⟩
    · exact h y hy
    · cases Mnemonic.opcode_injective (hy.trans hop.symm)
      exact hres hyres

namespace Machine

theorem execWord_of_not_legal {w : Word} (h : ∀ x : Mnemonic, ¬ x.legal w) (s : State) :
    execWord w s = commandFail .illegalCommand s := by
  obtain ⟨i, hi, -⟩ | ⟨-, -, he⟩ := execWord_cases w s
  · obtain ⟨x, -, hx, -⟩ := decode_eq_ok hi
    exact absurd hx (h x)
  · exact he

/-- Settles O3: legality is opcode and reserved bits, an illegal word decodes to no command, and the opcodes are
distinct. -/
theorem illegalWordFailsWithCodeSeven : Obligations.IllegalWordFailsWithCodeSeven :=
  ⟨forall_not_legal_iff, fun _ s h => execWord_of_not_legal h s,
    fun _ _ _ hx hy => Mnemonic.opcode_injective ((opcode_of_legal hx).trans (opcode_of_legal hy).symm)⟩

end Machine

end Sys2Proof
end

section
/-! PROOF. The assembler's command lines (R89, R91): a line in range is the spelling of a command, and stands for
the CMD write of that command's word. -/

namespace Sys2Proof.Machine

theorem toNat_encodeIx (op idx : Byte) : (encodeIx op idx).toNat = op.toNat + 2 ^ 8 * idx.toNat := by
  have hop := toNat_byteWord op
  have hidx := toNat_byteWord idx
  unfold byteWord at hop hidx
  rw [encodeIx, toNat_or_shiftLeft (by omega) (by omega), hop, hidx]

/-- Formats R2, CF and PW are format IX with a field above it. -/
theorem toNat_encodeIx_or_shiftLeft (op a : Byte) {n : Nat} (hn : n ≤ 16) (v : BitVec n) :
    (encodeIx op a ||| v.setWidth 32 <<< 16).toNat = op.toNat + 2 ^ 8 * a.toNat + 2 ^ 16 * v.toNat := by
  have hlow := toNat_encodeIx op a
  have hv : (v.setWidth 32).toNat = v.toNat := BitVec.toNat_setWidth_of_le (by omega)
  have hlt : v.toNat < 2 ^ 16 := v.isLt.trans_le (Nat.pow_le_pow_right two_pos hn)
  rw [toNat_or_shiftLeft (by omega) (by omega), hlow, hv]

theorem toNat_encodePair (op lo hi : Byte) :
    (encodePair op lo hi).toNat = op.toNat + 2 ^ 8 * lo.toNat + 2 ^ 16 * hi.toNat :=
  toNat_encodeIx_or_shiftLeft op lo (by decide) hi

theorem toNat_encodePw (op a : Byte) (e : BitVec 16) :
    (encodePw op a e).toNat = op.toNat + 2 ^ 8 * a.toNat + 2 ^ 16 * e.toNat :=
  toNat_encodeIx_or_shiftLeft op a le_rfl e

theorem isSome_assemble (c : AsmCommand) : (assemble c).isSome = c.wellFormed := by
  unfold assemble
  by_cases h : c.wellFormed
  · rw [if_pos h, h]
    cases c <;> rfl
  · rw [if_neg h, Bool.eq_false_of_not_eq_true h]
    rfl

theorem assemble_toAsm (i : Instr) : assemble i.toAsm = some i := by
  unfold assemble
  rw [if_pos (wellFormed_toAsm i)]
  cases i <;> simp [Instr.toAsm]

theorem assemble_ginv (b : Nat) : assemble (.ginv b) = assemble (.gdiv 1 b) := rfl

theorem assemble_gsqr (a : Nat) : assemble (.gsqr a) = assemble (.gpow a 2) := by
  have h : (AsmCommand.gsqr a).wellFormed = (AsmCommand.gpow a 2).wellFormed := (Bool.and_true _).symm
  unfold assemble
  exact if_congr (Bool.eq_iff_iff.mp h) rfl rfl

/-- A line with the assembler's answer known: the CMD write of the command's word in range, an error outside. -/
theorem event_command {c : AsmCommand} {p : Prop} [Decidable p] {n : Nat} (hc : c.wellFormed = true ↔ p)
    (hi : p → ∃ i, assemble c = some i ∧ (encode i).toNat = n) :
    (Line.command c).event = if p then some (.write (.window 0x000) 4 (BitVec.ofNat 32 n)) else none := by
  by_cases h : p
  · obtain ⟨i, hi, hn⟩ := hi h
    rw [if_pos h, ← hn, BitVec.ofNat_toNat, BitVec.setWidth_eq]
    simp only [Line.event, hi]
    rfl
  · have hnone : assemble c = none := by
      rw [← Option.not_isSome_iff_eq_none, isSome_assemble, hc]
      exact h
    simp only [Line.event, hnone, if_neg h]
    rfl

theorem fitsByte_iff (n : Nat) : fitsByte n = true ↔ n < 256 := decide_eq_true_iff

theorem fitsExponent_iff (n : Nat) : fitsExponent n = true ↔ n < 65536 := decide_eq_true_iff

/-- The lines of formats R2 and CF, for the spelling `f` of the command `g` with opcode `op` (R82, R89). -/
theorem event_pair {f : Nat → Nat → AsmCommand} {g : Byte → Byte → Instr} {op : Byte}
    (h : ∀ a b : Byte, f a.toNat b.toNat = (g a b).toAsm ∧ encode (g a b) = encodePair op a b)
    (hf : ∀ a b, (f a b).wellFormed = (fitsByte a && fitsByte b)) (a b : Nat) :
    (Line.command (f a b)).event = if a < 256 ∧ b < 256 then
      some (.write (.window 0x000) 4 (BitVec.ofNat 32 (op.toNat + 2 ^ 8 * a + 2 ^ 16 * b))) else none := by
  refine event_command (by rw [hf, Bool.and_eq_true, fitsByte_iff, fitsByte_iff]) fun ⟨ha, hb⟩ => ?_
  obtain ⟨hasm, henc⟩ := h (.ofNatLT a ha) (.ofNatLT b hb)
  exact ⟨_, (congrArg assemble hasm).trans (assemble_toAsm _), henc ▸ toNat_encodePair ..⟩

theorem event_gdiv (a b : Nat) : (Line.command (.gdiv a b)).event = if a < 256 ∧ b < 256 then
    some (.write (.window 0x000) 4 (BitVec.ofNat 32 (0x04 + 2 ^ 8 * a + 2 ^ 16 * b))) else none :=
  event_pair (g := .gdiv) (fun _ _ => ⟨rfl, rfl⟩) (fun _ _ => rfl) a b

theorem event_gpow (a n : Nat) : (Line.command (.gpow a n)).event = if a < 256 ∧ n < 65536 then
    some (.write (.window 0x000) 4 (BitVec.ofNat 32 (0x05 + 2 ^ 8 * a + 2 ^ 16 * n))) else none :=
  event_command (by rw [AsmCommand.wellFormed, Bool.and_eq_true, fitsByte_iff, fitsExponent_iff])
    fun ⟨ha, hn⟩ => ⟨_, assemble_toAsm (.gpow (.ofNatLT a ha) (.ofNatLT n hn)), toNat_encodePw ..⟩

theorem event_evpt (a : Nat) : (Line.command (.evpt a)).event = if a < 256 then
    some (.write (.window 0x000) 4 (BitVec.ofNat 32 (0x12 + 2 ^ 8 * a))) else none :=
  event_command (fitsByte_iff a) fun ha => ⟨_, assemble_toAsm (.evpt (.ofNatLT a ha)), toNat_encodeIx ..⟩

theorem event_congr {c d : AsmCommand} (h : assemble c = assemble d) :
    (Line.command c).event = (Line.command d).event := by
  simp only [Line.event, h]

/-- Settles O6: lines without operands are run, the others follow their format's rule, and a pseudo-instruction
its expansion. -/
theorem assemblerAcceptsOperandsInRange : Obligations.AssemblerAcceptsOperandsInRange := by
  refine ⟨by decide, fun a b => ?_, event_gpow, fun a => ?_, isSome_assemble, assemble_toAsm, assemble_ginv,
    assemble_gsqr, rfl⟩
  · simp only [List.forall_mem_cons, List.not_mem_nil, false_imp_iff, implies_true, and_true]
    exact ⟨event_pair (g := .gadd) (fun _ _ => ⟨rfl, rfl⟩) (fun _ _ => rfl) a b,
      event_pair (g := .gsub) (fun _ _ => ⟨rfl, rfl⟩) (fun _ _ => rfl) a b,
      event_pair (g := .gmul) (fun _ _ => ⟨rfl, rfl⟩) (fun _ _ => rfl) a b,
      event_gdiv a b,
      event_pair (g := .cfge) (fun _ _ => ⟨rfl, rfl⟩) (fun _ _ => rfl) a b,
      event_pair (g := .cfgd) (fun _ _ => ⟨rfl, rfl⟩) (fun _ _ => rfl) a b⟩
  · simp only [List.forall_mem_cons, List.not_mem_nil, false_imp_iff, implies_true, and_true]
    refine ⟨event_evpt a, ?_, ?_⟩
    · rw [event_congr (assemble_ginv a), event_gdiv]
      exact if_congr (and_iff_right (by decide)) rfl rfl
    · rw [event_congr (assemble_gsqr a), event_gpow]
      exact if_congr (and_iff_left (by decide)) rfl rfl

end Sys2Proof.Machine
end

section
/-! SUPPORT. Reduction modulo a polynomial of degree 8 (R103), read as polynomials over GF(2): every step adds a
multiple of the polynomial, and what is left is a byte. -/

namespace Sys2Proof.Machine

open Polynomial

@[simp] theorem toPoly_one : toPoly 1#8 = 1 := by
  ext k
  simp [coeff_toPoly, coeff_one]

/-- A word of any width shifted in a word with room for it is the product with a power of x; `toPoly_shiftLeft` is the
case of a byte. -/
theorem toPoly_setWidth_shiftLeft {v w i : Nat} (c : BitVec v) (h : i + v ≤ w) :
    toPoly (c.setWidth w <<< i) = toPoly c * X ^ i := by
  ext k
  rw [coeff_mul_X_pow', coeff_toPoly, coeff_toPoly, BitVec.getLsbD_shiftLeft, BitVec.getLsbD_setWidth]
  by_cases hi : i ≤ k
  · by_cases hk : k < w
    · simp [hi, hk, show k - i < w by omega]
    · simp [hk, BitVec.getLsbD_of_ge c (k - i) (by omega)]
  · simp [hi, not_le.1 hi]

/-- Cutting off bits that are not set changes no coefficient. -/
theorem toPoly_setWidth {v w : Nat} (c : BitVec v) (h : ∀ i, w ≤ i → c.getLsbD i = false) :
    toPoly (c.setWidth w) = toPoly c := by
  ext k
  rw [coeff_toPoly, coeff_toPoly, BitVec.getLsbD_setWidth]
  by_cases hk : k < w
  · simp [hk]
  · simp [h k (by omega)]

/-- A word of `w` bits is a polynomial of degree below `w`. -/
theorem degree_toPoly_lt {w : Nat} (c : BitVec w) : (toPoly c).degree < w := by
  rw [degree_lt_iff_coeff_zero]
  intro k hk
  simp [coeff_toPoly, BitVec.getLsbD_of_ge c k hk]

/-- Every polynomial of degree below `w` is a word of `w` bits. -/
theorem exists_toPoly_eq {w : Nat} {f : (ZMod 2)[X]} (h : f.degree < w) : ∃ c : BitVec w, toPoly c = f := by
  refine ⟨BitVec.ofFnLE fun i => decide (f.coeff i = 1), ?_⟩
  ext k
  rw [coeff_toPoly, BitVec.getLsbD_ofFnLE]
  by_cases hk : k < w
  · have hbit : ∀ z : ZMod 2, (if z = 1 then 1 else 0) = z := by decide
    simp [hk, hbit]
  · simp [hk, coeff_eq_zero_of_degree_lt (h.trans_le (by exact_mod_cast Nat.le_of_not_lt hk))]

theorem natDegree_toPoly_of_bit {p : BitVec 9} (h : p.getLsbD 8 = true) : (toPoly p).natDegree = 8 := by
  rw [natDegree_toPoly, log2_of_degree_eight h]

/-- A reduction step adds a multiple of the polynomial (R103). -/
theorem dvd_toPoly_reduceStep (p : BitVec 9) (c : BitVec 15) {d : Nat} (hd : d ≤ 14) :
    toPoly p ∣ toPoly (reduceStep p c d) + toPoly c := by
  unfold reduceStep
  split
  · rw [toPoly_xor, toPoly_setWidth_shiftLeft p (by omega), add_right_comm, CharTwo.add_self_eq_zero, zero_add]
    exact dvd_mul_right ..
  · rw [CharTwo.add_self_eq_zero]
    exact dvd_zero _

/-- "Each step clears bit d, because GF_POLY[8] = 1, and changes no bit above d" (R103). -/
theorem getLsbD_reduceStep {p : BitVec 9} (hp : p.getLsbD 8 = true) {c : BitVec 15} {d : Nat} (hd : 8 ≤ d)
    (hc : ∀ i, d < i → c.getLsbD i = false) {i : Nat} (hi : d ≤ i) : (reduceStep p c d).getLsbD i = false := by
  unfold reduceStep
  split
  next hbit =>
    have hlt : d < 15 := by
      by_contra h
      simp [BitVec.getLsbD_of_ge c d (by omega)] at hbit
    rcases hi.eq_or_lt with rfl | hi
    · rw [BitVec.getLsbD_xor, hbit, BitVec.getLsbD_shiftLeft, BitVec.getLsbD_setWidth,
        show d - (d - 8) = 8 by omega, hp]
      simp [hlt]
    · simp [hc i hi, BitVec.getLsbD_of_ge p (i - (d - 8)) (by omega)]
  next hbit =>
    rcases hi.eq_or_lt with rfl | hi
    · simpa using hbit
    · exact hc i hi

/-- What the steps from bit `7 + n` down to bit 8 leave: no bit from 8 up, and a multiple of the polynomial added. -/
theorem foldl_reduceStep {p : BitVec 9} (hp : p.getLsbD 8 = true) (n : Nat) (hn : n ≤ 7) (c : BitVec 15)
    (hc : ∀ i, 8 + n ≤ i → c.getLsbD i = false) :
    (∀ i, 8 ≤ i → (((List.range' 8 n).reverse.foldl (reduceStep p) c).getLsbD i = false)) ∧
      toPoly p ∣ toPoly ((List.range' 8 n).reverse.foldl (reduceStep p) c) + toPoly c := by
  induction n generalizing c with
  | zero => exact ⟨hc, by simp [CharTwo.add_self_eq_zero]⟩
  | succ n ih =>
    rw [List.range'_concat, List.reverse_append, List.reverse_singleton, List.singleton_append,
      List.foldl_cons, one_mul]
    obtain ⟨hbits, hdvd⟩ := ih (by omega) (reduceStep p c (8 + n)) fun i hi =>
      getLsbD_reduceStep hp (by omega) (fun j hj => hc j (by omega)) hi
    refine ⟨hbits, ?_⟩
    have hsum := dvd_add hdvd (dvd_toPoly_reduceStep p c (d := 8 + n) (by omega))
    rwa [add_assoc, ← add_assoc (toPoly (reduceStep p c (8 + n))), CharTwo.add_self_eq_zero, zero_add] at hsum

/-- The reduction of a word differs from it by a multiple of the polynomial (R103). -/
theorem dvd_toPoly_gfReduce {p : BitVec 9} (hp : p.getLsbD 8 = true) (c : BitVec 15) :
    toPoly p ∣ toPoly (gfReduce p c) + toPoly c := by
  obtain ⟨hbits, hdvd⟩ := foldl_reduceStep hp 7 le_rfl c fun i hi => BitVec.getLsbD_of_ge c i hi
  rwa [← toPoly_setWidth _ hbits] at hdvd

/-- The multiple of the polynomial by a word of 7 bits, as shifts of the polynomial (R103). -/
theorem toPoly_foldl_multiple (p : BitVec 9) (q : BitVec 7) :
    toPoly ((List.range 7).foldl
      (fun r i => if q.getLsbD i then r ^^^ (p.setWidth 15 <<< i) else r) 0) = toPoly p * toPoly q := by
  have hterm : (fun (r : BitVec 15) i => if q.getLsbD i then r ^^^ (p.setWidth 15 <<< i) else r) =
      fun r i => r ^^^ (if q.getLsbD i then p.setWidth 15 <<< i else 0) := by
    funext r i
    split <;> simp
  rw [hterm, toPoly_foldl_xor, toPoly.eq_1 q, Finset.mul_sum]
  refine Finset.sum_congr rfl fun i hi => ?_
  split
  · exact toPoly_setWidth_shiftLeft p (by have := Finset.mem_range.1 hi; omega)
  · rw [mul_zero]; exact toPoly_zero

/-- What times a polynomial of degree 8 gives a word of 15 bits has degree below 7. -/
theorem degree_lt_seven {p : BitVec 9} (hp : p.getLsbD 8 = true) {c : BitVec 15} {f : (ZMod 2)[X]}
    (h : toPoly c = toPoly p * f) : f.degree < (7 : Nat) := by
  rcases eq_or_ne f 0 with rfl | hf
  · rw [degree_zero]; exact WithBot.bot_lt_coe 7
  · have hp8 := natDegree_toPoly_of_bit hp
    have hp0 : toPoly p ≠ 0 := ne_zero_of_natDegree_gt (n := 7) (by omega)
    have hlt := degree_toPoly_lt c
    rw [h, ← natDegree_lt_iff_degree_lt (mul_ne_zero hp0 hf), natDegree_mul hp0 hf, hp8] at hlt
    rw [← natDegree_lt_iff_degree_lt hf]
    omega

/-- Settles O18: the multiple has a quotient of degree below 7, which is a word of 7 bits. -/
theorem reductionIsRemainder : Obligations.ReductionIsRemainder := by
  intro p c hp
  obtain ⟨f, hf⟩ := dvd_toPoly_gfReduce hp c
  have hwide : toPoly ((gfReduce p c).setWidth 15) = toPoly (gfReduce p c) :=
    toPoly_setWidth _ fun i hi => BitVec.getLsbD_of_ge _ i (by omega)
  have hsum : toPoly (c ^^^ (gfReduce p c).setWidth 15) = toPoly p * f := by
    rw [toPoly_xor, hwide, add_comm, hf]
  obtain ⟨q, rfl⟩ := exists_toPoly_eq (degree_lt_seven hp hsum)
  refine ⟨q, toPoly_injective ?_⟩
  rw [toPoly_xor, toPoly_foldl_multiple, ← hsum, toPoly_xor, ← add_assoc, CharTwo.add_self_eq_zero, zero_add]

end Sys2Proof.Machine
end

section
/-! SUPPORT. The bytes under a legal polynomial are the field GF(2)[x] modulo that polynomial (R105): the map from bytes
to it is a bijection that turns the functions of R100 to R107 into the field's own operations. -/

namespace Sys2Proof.Machine

open Polynomial

/-- A legal polynomial is irreducible: its factors of lower degree would be bytes (R5, and the sieve's statement). -/
theorem irreducible_toPoly {p : BitVec 9} (hp : p ∈ Config.legalPolys) : Irreducible (toPoly p) := by
  obtain ⟨h8, hirr⟩ := (legalPolynomialsAreTheIrreducibleOnes p).1 hp
  have hdeg := natDegree_toPoly_of_bit h8
  have hp0 : toPoly p ≠ 0 := ne_zero_of_natDegree_gt (n := 7) (by omega)
  rw [irreducible_iff]
  refine ⟨fun hu => ?_, fun f g hfg => ?_⟩
  · have := natDegree_eq_zero_of_isUnit hu
    omega
  · by_contra hunits
    rw [not_or] at hunits
    obtain ⟨hf, hg⟩ := hunits
    obtain ⟨hf0, hg0⟩ := mul_ne_zero_iff.1 (hfg ▸ hp0)
    have hsum : f.natDegree + g.natDegree = 8 := by rw [← natDegree_mul hf0 hg0, ← hfg, hdeg]
    have hf1 : 0 < f.natDegree := natDegree_pos_iff_degree_pos.2 (degree_pos_of_ne_zero_of_nonunit hf0 hf)
    have hg1 : 0 < g.natDegree := natDegree_pos_iff_degree_pos.2 (degree_pos_of_ne_zero_of_nonunit hg0 hg)
    obtain ⟨a, rfl⟩ := exists_toPoly_eq (w := 8) ((natDegree_lt_iff_degree_lt hf0).1 (by omega))
    obtain ⟨b, rfl⟩ := exists_toPoly_eq (w := 8) ((natDegree_lt_iff_degree_lt hg0).1 (by omega))
    refine hirr a b (toPoly_injective ?_)
    rw [toPoly_clmul, ← hfg, toPoly_setWidth p fun i hi => BitVec.getLsbD_of_ge p i (by omega)]

/-- The element of GF(2)[x] modulo `p` that a byte stands for (R11, R105). -/
noncomputable def toField (p : BitVec 9) (a : Byte) : AdjoinRoot (toPoly p) := AdjoinRoot.mk (toPoly p) (toPoly a)

section Ring

variable {p : BitVec 9} (hp : p ∈ Config.legalPolys)

theorem toField_zero : toField p 0 = 0 := (congrArg _ toPoly_zero).trans (map_zero _)

theorem toField_one : toField p 1 = 1 := (congrArg _ toPoly_one).trans (map_one _)

theorem toField_xor (a b : Byte) : toField p (a ^^^ b) = toField p a + toField p b := by
  rw [toField, toPoly_xor, map_add]; rfl

include hp

/-- Two words that differ by a multiple of the polynomial reduce to one element. -/
theorem toField_gfReduce (c : BitVec 15) : toField p (gfReduce p c) = AdjoinRoot.mk (toPoly p) (toPoly c) := by
  rw [toField, AdjoinRoot.mk_eq_mk, CharTwo.sub_eq_add]
  exact dvd_toPoly_gfReduce (legalPolys_degree hp) c

theorem toField_gfMul (a b : Byte) : toField p (gfMul p a b) = toField p a * toField p b := by
  rw [gfMul, toField_gfReduce hp, toPoly_clmul, map_mul]; rfl

theorem toField_gfPow (a : Byte) (n : Nat) : toField p (gfPow p a n) = toField p a ^ n := by
  induction n with
  | zero => rw [gfPow, toField_one, pow_zero]
  | succ n ih => rw [gfPow, toField_gfMul hp, ih, pow_succ]

/-- The sum of two different bytes has degree below 8, so it is no multiple of the polynomial. -/
theorem toField_injective : Function.Injective (toField p) := by
  intro a b h
  rw [toField, toField, AdjoinRoot.mk_eq_mk, CharTwo.sub_eq_add, ← toPoly_xor] at h
  have h0 : toPoly (a ^^^ b) = 0 := by
    refine eq_zero_of_dvd_of_natDegree_lt h ?_
    rw [natDegree_toPoly, natDegree_toPoly_of_bit (legalPolys_degree hp)]
    exact log2_lt_eight _
  rw [toPoly_xor, CharTwo.add_eq_zero] at h0
  exact toPoly_injective h0

/-- Every element has a remainder of degree below 8, which is a byte. -/
theorem toField_surjective : Function.Surjective (toField p) := by
  intro z
  obtain ⟨f, rfl⟩ := AdjoinRoot.mk_surjective z
  have hdeg := natDegree_toPoly_of_bit (legalPolys_degree hp)
  have hp0 : toPoly p ≠ 0 := (irreducible_toPoly hp).ne_zero
  have hlt : (f % toPoly p).degree < (8 : Nat) :=
    (EuclideanDomain.mod_lt f hp0).trans_eq ((degree_eq_iff_natDegree_eq hp0).2 hdeg)
  obtain ⟨a, ha⟩ := exists_toPoly_eq hlt
  refine ⟨a, ?_⟩
  rw [toField, ha, EuclideanDomain.mod_eq_sub_mul_div, map_sub, map_mul, AdjoinRoot.mk_self, zero_mul, sub_zero]

theorem toField_eq_zero {a : Byte} : toField p a = 0 ↔ a = 0 := by
  rw [← toField_zero, (toField_injective hp).eq_iff]

/-- The field has 256 elements (R105). -/
theorem natCard_field : Nat.card (AdjoinRoot (toPoly p)) = 256 := by
  rw [← Nat.card_eq_of_bijective _ ⟨toField_injective hp, toField_surjective hp⟩,
    Nat.card_congr BitVec.equivFin.toEquiv, Nat.card_fin]
  rfl

end Ring

section Field

variable {p : BitVec 9} (hp : p ∈ Config.legalPolys) [Fact (Irreducible (toPoly p))]

include hp

/-- The 255 nonzero elements form a group (R107). -/
theorem toField_pow_255 {a : Byte} (ha : a ≠ 0) : toField p a ^ 255 = 1 := by
  have hu := pow_card_eq_one' (x := Units.mk0 (toField p a) (mt (toField_eq_zero hp).1 ha))
  rw [Nat.card_units, natCard_field hp] at hu
  simpa using congrArg Units.val hu

/-- Trying every byte finds the inverse (R105). -/
theorem toField_gfInv {b : Byte} (hb : b ≠ 0) : toField p (gfInv p b) = (toField p b)⁻¹ := by
  have hinv : ∀ c, gfMul p b c = 1 ↔ toField p c = (toField p b)⁻¹ := fun c => by
    rw [← (toField_injective hp).eq_iff, toField_gfMul hp, toField_one, mul_comm,
      mul_eq_one_iff_eq_inv₀ (mt (toField_eq_zero hp).1 hb)]
  obtain ⟨c, hc⟩ := toField_surjective hp (toField p b)⁻¹
  have hmem : c ∈ (List.range 256).map (BitVec.ofNat 8) :=
    List.mem_map.2 ⟨c.toNat, List.mem_range.2 c.isLt, by simp⟩
  unfold gfInv
  cases hfind : ((List.range 256).map (BitVec.ofNat 8)).find? fun c => gfMul p b c == 1 with
  | none => exact absurd ((hinv c).2 hc) (by simpa using List.find?_eq_none.1 hfind c hmem)
  | some d => exact (hinv d).1 (by simpa using List.find?_some hfind)

end Field

end Sys2Proof.Machine
end

section
/-! PROOF. The field laws on bytes (R104 to R109): each is the field's own law, carried back to bytes. -/

namespace Sys2Proof.Machine

open Polynomial

theorem gfMul_comm (p : BitVec 9) (a b : Byte) : gfMul p a b = gfMul p b a := by rw [gfMul, clmul_comm, gfMul]

section Laws

variable {p : BitVec 9} (hp : p ∈ Config.legalPolys)
include hp

theorem gfMul_assoc (a b c : Byte) : gfMul p (gfMul p a b) c = gfMul p a (gfMul p b c) :=
  toField_injective hp (by simp only [toField_gfMul hp, mul_assoc])

theorem gfMul_one (a : Byte) : gfMul p a 1 = a :=
  toField_injective hp (by rw [toField_gfMul hp, toField_one, mul_one])

theorem gfMul_zero (a : Byte) : gfMul p a 0 = 0 :=
  toField_injective hp (by rw [toField_gfMul hp, toField_zero, mul_zero])

theorem gfMul_eq_zero (a b : Byte) : gfMul p a b = 0 ↔ a = 0 ∨ b = 0 := by
  have : Fact (Irreducible (toPoly p)) := ⟨irreducible_toPoly hp⟩
  rw [← toField_eq_zero hp, toField_gfMul hp, mul_eq_zero, toField_eq_zero hp, toField_eq_zero hp]

/-- A nonzero factor can be cancelled: there are no zero divisors (R106). -/
theorem gfMul_left_cancel {b c d : Byte} (hb : b ≠ 0) (h : gfMul p b c = gfMul p b d) : c = d := by
  have hz : gfMul p b (c ^^^ d) = 0 := by rw [gfMul_xor_right, h, BitVec.xor_self]; rfl
  exact BitVec.xor_eq_zero_iff.1 (((gfMul_eq_zero hp b _).1 hz).resolve_left hb)

theorem gfMul_gfInv {b : Byte} (hb : b ≠ 0) : gfMul p b (gfInv p b) = 1 := by
  have : Fact (Irreducible (toPoly p)) := ⟨irreducible_toPoly hp⟩
  refine toField_injective hp ?_
  rw [toField_gfMul hp, toField_gfInv hp hb, mul_inv_cancel₀ (mt (toField_eq_zero hp).1 hb), toField_one]

/-- The inverse is the one byte whose product with `b` is 1 (R105). -/
theorem eq_gfInv {b c : Byte} (hb : b ≠ 0) (h : gfMul p b c = 1) : c = gfInv p b :=
  gfMul_left_cancel hp hb (h.trans (gfMul_gfInv hp hb).symm)

theorem gfMul_gfMul_gfInv (a : Byte) {b : Byte} (hb : b ≠ 0) : gfMul p b (gfMul p a (gfInv p b)) = a := by
  rw [gfMul_comm p a, ← gfMul_assoc hp, gfMul_gfInv hp hb, gfMul_comm, gfMul_one hp]

/-- The quotient is the one byte whose product with the divisor is the dividend (R106). -/
theorem gfDiv_eq_some_iff {a b c : Byte} (hb : b ≠ 0) : gfDiv p a b = some c ↔ gfMul p b c = a := by
  rw [gfDiv_of_ne_zero p a hb, Option.some_inj]
  constructor
  · rintro rfl
    exact gfMul_gfMul_gfInv hp a hb
  · intro h
    exact gfMul_left_cancel hp hb ((gfMul_gfMul_gfInv hp a hb).trans h.symm)

theorem gfPow_one (a : Byte) : gfPow p a 1 = a := toField_injective hp (by rw [toField_gfPow hp, pow_one])

theorem gfPow_add (a : Byte) (m n : Nat) : gfPow p a (m + n) = gfMul p (gfPow p a m) (gfPow p a n) :=
  toField_injective hp (by simp only [toField_gfMul hp, toField_gfPow hp, pow_add])

theorem gfPow_zero_left {n : Nat} (hn : n ≠ 0) : gfPow p 0 n = 0 := by
  cases n with
  | zero => exact absurd rfl hn
  | succ n => exact gfMul_zero hp _

/-- The powers of a nonzero byte repeat after 255: "the 255 nonzero elements form a group" (R107). -/
theorem gfPow_mod {a : Byte} (ha : a ≠ 0) (n : Nat) : gfPow p a n = gfPow p a (n % 255) := by
  have : Fact (Irreducible (toPoly p)) := ⟨irreducible_toPoly hp⟩
  refine toField_injective hp ?_
  rw [toField_gfPow hp, toField_gfPow hp, ← pow_eq_pow_mod n (toField_pow_255 hp ha)]

/-- The inverse is the power 254, because the power 255 is 1 (R105). -/
theorem gfInv_eq_gfPow {b : Byte} (hb : b ≠ 0) : gfInv p b = gfPow p b 254 := by
  refine (eq_gfInv hp hb ?_).symm
  rw [gfMul_comm]
  exact gfPow_mod hp hb 255

end Laws

/-- Settles O20, law by law. -/
theorem fieldLaws : Obligations.FieldLaws := by
  intro p hp a b c
  refine ⟨⟨BitVec.xor_comm a b, BitVec.xor_assoc a b c, BitVec.xor_zero, BitVec.xor_self⟩,
    ⟨gfMul_comm p a b, gfMul_assoc hp a b c, gfMul_one hp a, gfMul_zero hp a, gfMul_xor_right p a b c⟩,
    gfMul_eq_zero hp a b, fun hb => ?_, (gfDiv_eq_none p a 0).2 rfl, gfPow_add hp a⟩
  rw [gfDiv_eq_some_iff hp hb, gfMul_comm]

/-- Settles O21: a nonzero factor can be cancelled, so the inverse and the quotient are unique. -/
theorem inverseAndQuotientAreUnique : Obligations.InverseAndQuotientAreUnique := by
  intro p hp a b
  refine ⟨(gfDiv_eq_none p a b).2, fun hb => ?_⟩
  exact ⟨gfMul_gfInv hp hb, fun c hc => eq_gfInv hp hb hc, gfInv_eq_gfPow hp hb, gfDiv_of_ne_zero p a hb,
    gfMul_gfMul_gfInv hp a hb, fun c hc => (gfDiv_eq_some_iff hp hb).2 hc⟩

theorem gfPow_eq_iterate (p : BitVec 9) (a : Byte) (n : Nat) : gfPow p a n = (gfMul p · a)^[n] 1 := by
  induction n with
  | zero => rfl
  | succ n ih => rw [Function.iterate_succ_apply', ← ih, gfPow]

/-- Settles O22: powers of 0 vanish, and powers of a nonzero byte repeat after 255. -/
theorem powerHasClosedForm : Obligations.PowerHasClosedForm := by
  intro p hp a n
  refine ⟨gfPow_eq_iterate p a n, ?_⟩
  split_ifs with hn ha
  · rw [hn, gfPow]
  · rw [ha, gfPow_zero_left hp hn]
  · exact gfPow_mod hp ha n

/-- One doubling of the shift-and-add form: multiplication by x, reduced (R104). -/
def mulX (p : BitVec 9) (x : Byte) : Byte :=
  if x.getLsbD 7 then (x <<< 1) ^^^ p.setWidth 8 else x <<< 1

/-- The doubling is a single reduction step of the shifted byte (R103, R104). -/
theorem mulX_eq (p : BitVec 9) (x : Byte) : mulX p x = (reduceStep p (x.setWidth 15 <<< 1) 8).setWidth 8 := by
  have hbit : (x.setWidth 15 <<< 1).getLsbD 8 = x.getLsbD 7 := by simp
  have hlow : (x.setWidth 15 <<< 1).setWidth 8 = x <<< 1 := by ext i hi; simp
  rw [mulX, reduceStep, hbit]
  split
  · rw [BitVec.setWidth_xor, hlow]; simp
  · rw [hlow]

theorem toField_mulX {p : BitVec 9} (hp : p ∈ Config.legalPolys) (x : Byte) :
    toField p (mulX p x) = toField p x * AdjoinRoot.root (toPoly p) := by
  have hbits : ∀ i, 8 ≤ i → (reduceStep p (x.setWidth 15 <<< 1) 8).getLsbD i = false := fun i =>
    getLsbD_reduceStep (legalPolys_degree hp) le_rfl fun j hj => by simp [BitVec.getLsbD_of_ge x (j - 1) (by omega)]
  have hdvd := dvd_toPoly_reduceStep p (x.setWidth 15 <<< 1) (d := 8) (by decide)
  rw [mulX_eq, toField, toPoly_setWidth _ hbits, toField, ← AdjoinRoot.mk_X, ← map_mul, ← pow_one X,
    ← toPoly_shiftLeft (w := 15) x (by decide), AdjoinRoot.mk_eq_mk, CharTwo.sub_eq_add]
  exact hdvd

/-- The byte 2 is x, so its product is one doubling. -/
theorem gfMul_two {p : BitVec 9} (hp : p ∈ Config.legalPolys) (a : Byte) : gfMul p a 2 = mulX p a := by
  have hx : toField p 2 = AdjoinRoot.root (toPoly p) :=
    (toField_mulX hp 1).trans (by rw [toField_one, one_mul])
  refine toField_injective hp ?_
  rw [toField_gfMul hp, hx, toField_mulX hp]

/-- Doubling the byte of x^7 leaves the polynomial without its highest bit. -/
theorem mulX_highBit (p : BitVec 9) : mulX p 0x80 = p.setWidth 8 := BitVec.zero_xor

/-- One round of the shift-and-add form, on the partial product and the doubled factor (R104). -/
def shiftAndAddRound (p : BitVec 9) (b : Byte) (rx : Byte × Byte) (i : Nat) : Byte × Byte :=
  (if b.getLsbD i then rx.1 ^^^ rx.2 else rx.1, mulX p rx.2)

/-- After `n` rounds: the product with the `n` lowest bits of `b`, and the factor times x^n (R104). -/
theorem toField_shiftAndAdd {p : BitVec 9} (hp : p ∈ Config.legalPolys) (a b : Byte) (n : Nat) :
    toField p ((List.range n).foldl (shiftAndAddRound p b) (0, a)).1 =
        toField p a * ∑ i ∈ Finset.range n, (if b.getLsbD i then AdjoinRoot.root (toPoly p) ^ i else 0) ∧
      toField p ((List.range n).foldl (shiftAndAddRound p b) (0, a)).2 =
        toField p a * AdjoinRoot.root (toPoly p) ^ n := by
  induction n with
  | zero => exact ⟨toField_zero.trans (mul_zero _).symm, (mul_one _).symm⟩
  | succ n ih =>
    obtain ⟨hr, hx⟩ := ih
    rw [List.range_succ, List.foldl_append, List.foldl_cons, List.foldl_nil, shiftAndAddRound,
      Finset.sum_range_succ, mul_add]
    refine ⟨?_, by rw [toField_mulX hp, hx, pow_succ, mul_assoc]⟩
    split
    · rw [toField_xor, hr, hx]
    · rw [hr, mul_zero, add_zero]

/-- A byte is the sum of the powers of x at its set bits. -/
theorem toField_eq_sum (p : BitVec 9) (b : Byte) : toField p b =
    ∑ i ∈ Finset.range 8, if b.getLsbD i then AdjoinRoot.root (toPoly p) ^ i else 0 := by
  rw [toField, toPoly.eq_1 b, map_sum]
  refine Finset.sum_congr rfl fun i _ => ?_
  split
  · rw [map_pow, AdjoinRoot.mk_X]
  · rw [map_zero]

/-- Settles O19: eight rounds of the shift-and-add form make up the whole product. -/
theorem gfMulIsShiftAndAdd : Obligations.GfMulIsShiftAndAdd := by
  intro p hp a b
  refine ⟨rfl, toField_injective hp ?_, gfMul_zero hp a, gfMul_one hp a⟩
  rw [toField_gfMul hp, toField_eq_sum p b]
  exact (toField_shiftAndAdd hp a b 8).1.symm

end Sys2Proof.Machine
end

section
/-! PROOF. The field commands (R110 to R114): each writes its function's value to RESULT, so its corner cases are the
function's own. -/

namespace Sys2Proof.Machine

theorem execGadd_of_xor {a b r : Byte} (h : a ^^^ b = r) (s : State) :
    exec (.gadd a b) s = .next { s with result := r, statusCode := 0 } := h ▸ resultDone_eq _ s

theorem execGsub_eq_execGadd (a b : Byte) (s : State) : exec (.gsub a b) s = exec (.gadd a b) s := rfl

theorem execGmul_of_gfMul {a b r : Byte} (h : gfMul Config.gfPoly a b = r) (s : State) :
    exec (.gmul a b) s = .next { s with result := r, statusCode := 0 } := h ▸ resultDone_eq _ s

theorem execGpow_of_gfPow {a r : Byte} {e : BitVec 16} {n : Nat}
    (h : gfPow Config.gfPoly a n = r) (he : e.toNat = n) (s : State) :
    exec (.gpow a e) s = .next { s with result := r, statusCode := 0 } := by
  subst he h
  exact resultDone_eq _ s

/-- GDIV writes the byte whose product with the divisor is the dividend (R113). -/
theorem execGdiv_of_gfMul {a b c : Byte} (hb : b ≠ 0) (h : gfMul Config.gfPoly b c = a) (s : State) :
    exec (.gdiv a b) s = .next { s with result := c, statusCode := 0 } := by
  change execGdiv a b s = _
  simp only [execGdiv, (gfDiv_eq_some_iff gfPoly_legal hb).2 h]
  exact resultDone_eq c s

/-- Settles O13: the exclusive-or of the operands, in either order. -/
theorem gaddAndGsubWriteXor : Obligations.GaddAndGsubWriteXor := by
  refine ⟨fun a b s => ⟨rfl, rfl, execGadd_of_xor rfl s, execGsub_eq_execGadd a b s, ?_⟩,
    fun a s => ⟨execGadd_of_xor BitVec.xor_self s, execGadd_of_xor BitVec.xor_zero s,
      execGadd_of_xor BitVec.xor_self s⟩,
    fun s => ⟨execGadd_of_xor (by decide) s, execGadd_of_xor (by decide) s⟩⟩
  exact (execGadd_of_xor (BitVec.xor_comm a b) s).trans (execGadd_of_xor rfl s).symm

/-- "When clmul(A, B) < 0x100, no reduction occurs" (R112): no step finds its bit set. -/
theorem gfReduce_of_lt (p : BitVec 9) {c : BitVec 15} (h : c < 0x100) : gfReduce p c = c.setWidth 8 := by
  have hstep {d : Nat} (hd : 8 ≤ d) : reduceStep p c d = c := by
    have hlt : c.toNat < 2 ^ d := (show c.toNat < 2 ^ 8 from h).trans_le (Nat.pow_le_pow_right two_pos hd)
    exact if_neg (by simp [BitVec.getLsbD, Nat.testBit_lt_two_pow hlt])
  simp [gfReduce, hstep]

theorem gfMul_of_clmul_lt (p : BitVec 9) {a b : Byte} (h : clmul a b < 0x100) :
    gfMul p a b = (clmul a b).setWidth 8 := gfReduce_of_lt p h

/-- Settles O14: the product, by the laws of multiplication and by a product that needs no reduction. -/
theorem gmulWritesProduct : Obligations.GmulWritesProduct := by
  have hp := gfPoly_legal
  refine ⟨fun a b s => ⟨rfl, execGmul_of_gfMul rfl s, ?_, fun h => execGmul_of_gfMul (gfMul_of_clmul_lt _ h) s⟩,
    fun a s => ⟨execGmul_of_gfMul (gfMul_zero hp a) s, execGmul_of_gfMul (gfMul_one hp a) s⟩,
    fun s => ⟨?_, ?_, ?_⟩, by decide, by decide⟩
  · exact (execGmul_of_gfMul (gfMul_comm ..) s).trans (execGmul_of_gfMul rfl s).symm
  · exact execGmul_of_gfMul (gfMul_of_clmul_lt _ (by decide)) s
  · exact execGmul_of_gfMul (gfMul_of_clmul_lt _ (by decide)) s
  · exact execGmul_of_gfMul ((gfMul_two hp _).trans (mulX_highBit _)) s

/-- Settles O15: the quotient is the byte whose product with the divisor is the dividend, so each corner case names
such a byte. -/
theorem gdivWritesQuotient : Obligations.GdivWritesQuotient := by
  have hp := gfPoly_legal
  refine ⟨fun a b => rfl, fun a s => rfl, fun a b s hb => ?_, fun b s hb => ⟨?_, ?_, ?_⟩, fun a s => ?_,
    fun a b c s hb h => ?_, ?_, ?_⟩
  · have hc := gfMul_gfMul_gfInv hp a hb
    exact ⟨_, execGdiv_of_gfMul hb hc s, hc, fun d hd => gfMul_left_cancel hp hb (hd.trans hc.symm)⟩
  · exact execGdiv_of_gfMul hb (gfMul_zero hp b) s
  · exact execGdiv_of_gfMul hb (gfMul_one hp b) s
  · exact execGdiv_of_gfMul hb (gfMul_gfInv hp hb) s
  · exact execGdiv_of_gfMul (by decide) ((gfMul_comm ..).trans (gfMul_one hp a)) s
  · have hlt : a.setWidth 15 < 0x100 := by
      show (a.setWidth 15).toNat < 2 ^ 8
      rw [BitVec.toNat_setWidth_of_le (by decide)]
      exact a.isLt
    refine execGdiv_of_gfMul hb ?_ s
    rw [gfMul, h, gfReduce_of_lt _ hlt, BitVec.setWidth_setWidth_of_le _ (by decide), BitVec.setWidth_eq]
  · exact (gfDiv_eq_some_iff (by decide) (by decide)).2 (by decide)
  · exact (gfDiv_eq_some_iff (by decide) (by decide)).2 (by decide)

/-- Every word of the opcode is legal: GPOW has no reserved bits (R114). -/
theorem decode_gpow {w : Word} (h : w.setWidth 8 = (0x05 : Byte)) :
    decode w = .ok (.gpow (w.extractLsb' 8 8) (w.extractLsb' 16 16)) :=
  (decode_of_opcode (x := .gpow) h).trans (if_pos (BitVec.ushiftRight_eq_zero le_rfl))

/-- The square of x + 1 needs no reduction (R114). -/
theorem gfPow_three_two {p : BitVec 9} (hp : p ∈ Config.legalPolys) : gfPow p 0x03 2 = 0x05 := by
  rw [gfPow, gfPow_one hp, gfMul_of_clmul_lt _ (by decide)]
  decide

/-- Seven doublings of 1 reach the highest bit, and the eighth reduces (R114). -/
theorem gfPow_two_eight {p : BitVec 9} (hp : p ∈ Config.legalPolys) : gfPow p 0x02 8 = p.setWidth 8 := by
  have h7 : gfPow p 0x02 7 = 0x80 := by
    simp only [gfPow, gfMul_two hp]
    simp [mulX]
  rw [gfPow, h7, gfMul_two hp, mulX_highBit]

/-- Settles O16: a power's exponent counts modulo 255. -/
theorem gpowWritesPower : Obligations.GpowWritesPower := by
  have hp := gfPoly_legal
  refine ⟨fun a e s => ⟨rfl, execGpow_of_gfPow rfl rfl s⟩, fun w hw => ⟨_, _, decode_gpow hw⟩,
    fun a s => ⟨execGpow_of_gfPow (gfPow.eq_1 ..) rfl s, execGpow_of_gfPow (gfPow_one hp a) rfl s⟩,
    fun e s he => execGpow_of_gfPow (gfPow_zero_left hp ?_) rfl s, fun a s ha => ?_,
    fun s => ⟨execGpow_of_gfPow (gfPow_three_two hp) rfl s, execGpow_of_gfPow (gfPow_two_eight hp) rfl s⟩⟩
  · exact fun h0 => he (BitVec.eq_of_toNat_eq h0)
  · have hmod := gfPow_mod hp ha
    exact ⟨execGpow_of_gfPow (hmod 255) rfl s, execGpow_of_gfPow (gfInv_eq_gfPow hp ha).symm rfl s,
      execGpow_of_gfPow ((hmod 256).trans (gfPow_one hp a)) rfl s, execGpow_of_gfPow (hmod 65535) rfl s⟩

end Sys2Proof.Machine
end

section
/-! PROOF. Configuration and evaluation points (R120 to R125): the exact checks of CFGE, CFGD and EVPT, their next
states, and CONFIG kept by every other event. -/

namespace Sys2Proof.Machine

theorem configure_of_legal {k n : Byte} (h : legalConfig k.toNat n.toNat) (s : State) :
    configure k n.toNat s = .next { s with configK := k, configN := n, configValid := true, statusCode := 0 } := by
  rw [configure, if_pos h, BitVec.ofNat_toNat, BitVec.setWidth_eq]
  rfl

theorem configure_of_not_legal {k : Byte} {n : Nat} (h : ¬ legalConfig k.toNat n) (s : State) :
    configure k n s = .next { s with statusCode := 5, statusSticky := true } := if_neg h

theorem one_le_toNat_iff (k : Byte) : 1 ≤ k.toNat ↔ k ≠ 0 :=
  Nat.one_le_iff_ne_zero.trans (BitVec.toNat_ne_iff_ne (y := 0))

/-- CFGE's sum has K ≤ N of itself, so only K = 0 and the upper bound are left to check (R122). -/
theorem legalConfig_sum_iff (k m : Byte) :
    legalConfig k.toNat (k.toNat + m.toNat) ↔ ¬ (k = 0 ∨ 255 < k.toNat + m.toNat) := by
  rw [legalConfig, one_le_toNat_iff, not_or, Nat.not_lt]
  exact and_congr_right fun _ => and_iff_right (Nat.le_add_right ..)

/-- CFGD's N is a byte, so N ≤ 255 of itself (R123). -/
theorem legalConfig_byte_iff (k n : Byte) :
    legalConfig k.toNat n.toNat ↔ ¬ (k = 0 ∨ n.toNat < k.toNat) := by
  rw [legalConfig, one_le_toNat_iff, not_or, Nat.not_lt]
  exact and_congr_right fun _ => and_iff_left (Nat.le_of_lt_succ n.isLt)

/-- Settles O25: the sum of a legal pair does not wrap. -/
theorem cfgeSetsConfiguration : Obligations.CfgeSetsConfiguration := by
  refine fun k m s => ⟨rfl, fun hbad => ?_, fun hok => ?_⟩
  · exact configure_of_not_legal (fun hl => (legalConfig_sum_iff k m).1 hl hbad) s
  · have hn : (k + m).toNat = k.toNat + m.toNat := BitVec.toNat_add_of_lt (by omega)
    have hl := (legalConfig_sum_iff k m).2 hok
    refine ⟨?_, hn⟩
    change configure k (k.toNat + m.toNat) s = _
    rw [← hn] at hl ⊢
    exact configure_of_legal hl s

/-- Settles O26: both commands establish the same K and N when CFGD is given the exact sum. -/
theorem cfgdSetsConfiguration : Obligations.CfgdSetsConfiguration := by
  refine ⟨fun k m s => ⟨rfl, fun hbad => ?_, fun hok => ?_⟩, fun k p s _ hsum => ?_⟩
  · exact configure_of_not_legal (fun hl => (legalConfig_byte_iff k m).1 hl hbad) s
  · exact configure_of_legal ((legalConfig_byte_iff k m).2 hok) s
  · exact congrArg (configure k · s) (BitVec.toNat_add_of_lt (Nat.lt_succ_of_le hsum))

/-- The evaluation point of a byte index is the byte after it (R120). -/
theorem point_toNat_eq_add_one (idx : Byte) : point idx.toNat = idx + 1 := by
  rw [point, BitVec.ofNat_add, BitVec.ofNat_toNat, BitVec.setWidth_eq]
  rfl

/-- Settles O27: an index below N is below 255, so its point does not wrap to zero. -/
theorem evptWritesPoint : Obligations.EvptWritesPoint := by
  refine fun idx s => ⟨rfl, fun hv => ?_, fun hv hidx => ?_, fun hv hidx => ⟨?_, ?_⟩⟩
  · exact if_pos hv
  · exact (if_neg (by simp [hv])).trans (if_pos hidx)
  · change execEvpt idx s = _
    rw [execEvpt, if_neg (by simp [hv]), if_neg (Nat.not_le.2 hidx), point_toNat_eq_add_one, resultDone_eq]
  · have hN := s.configN.isLt
    exact point_toNat_eq_add_one idx ▸ point_toNat (by omega)

/-- Only the outputs of CFGE and CFGD touch CONFIG, and they set VALID (R125). -/
theorem Output.sameConfig_or_configure {s u : State} {i : Instr} (hu : Output s i u) :
    SameConfig s u ∨ (i.mnemonic ∈ [.cfge, .cfgd] ∧ u.configValid = true) := by
  cases hu with
  | config _ _ _ hm => exact .inr ⟨hm, rfl⟩
  | nop | clrs | result | codeword | message => exact .inl ⟨rfl, rfl, rfl⟩

theorem eq_cfge_or_cfgd_of_mnemonic {i : Instr} (h : i.mnemonic ∈ [Mnemonic.cfge, .cfgd]) :
    ∃ k m, i = .cfge k m ∨ i = .cfgd k m := by
  cases i with
  | cfge k m => exact ⟨k, m, .inl rfl⟩
  | cfgd k m => exact ⟨k, m, .inr rfl⟩
  | _ => exact absurd h (by simp [Instr.mnemonic])

/-- A word written to CMD keeps CONFIG unless it is a CFGE or a CFGD that completes (R125). -/
theorem execWord_sameConfig_or_configure {w : Word} {s t : State} (h : execWord w s = .next t) :
    SameConfig s t ∨ ∃ k m, (decode w = .ok (.cfge k m) ∨ decode w = .ok (.cfgd k m)) ∧
      t.statusCode = 0 ∧ t.configValid = true := by
  rcases execWord_cases w s with ⟨i, hi, e⟩ | ⟨_, -, e⟩ <;> rw [e] at h
  · rcases exec_next h with ⟨c, -, rfl⟩ | ⟨u, hu, rfl⟩
    · exact .inl ⟨rfl, rfl, rfl⟩
    · refine hu.sameConfig_or_configure.imp id fun ⟨hm, hv⟩ => ?_
      obtain ⟨k, m, hkm⟩ := eq_cfge_or_cfgd_of_mnemonic hm
      exact ⟨k, m, hkm.imp (hi.trans <| congrArg _ ·) (hi.trans <| congrArg _ ·), rfl, hv⟩
  · injection h with h
    exact .inl (h ▸ ⟨rfl, rfl, rfl⟩)

/-- Settles O28: of the host's events only a reset and a word written to CMD reach CONFIG. -/
theorem configChangesOnlyByConfigure : Obligations.ConfigChangesOnlyByConfigure := by
  intro s t e rest hp h
  rw [step_of_pending hp] at h
  rcases performEvent_next h with ⟨hreset, -⟩ | ⟨_, rfl⟩ | ⟨_, rfl | rfl | rfl⟩ | ⟨b, _, _, -, rfl⟩ |
    ⟨tgt, off, w, hwrite, hoff, hcmd, hw⟩
  · exact .inr (.inl hreset)
  · exact .inl ⟨rfl, rfl, rfl⟩
  · exact .inl ⟨rfl, rfl, rfl⟩
  · exact .inl ⟨rfl, rfl, rfl⟩
  · exact .inl ⟨rfl, rfl, rfl⟩
  · exact .inl (by simp [SameConfig])
  · rcases execWord_sameConfig_or_configure hw with hsame | ⟨k, m, hdec, hcode, hvalid⟩
    · exact .inl hsame
    · rw [eq_zero_of_regAt_cmd hcmd] at hoff
      exact .inr (.inr ⟨tgt, w, k, m, hwrite, hoff, hdec, hcode, hvalid⟩)

end Sys2Proof.Machine
end

section
/-! SUPPORT. A list of bytes as a polynomial over the field of bytes, constant term first: the Horner rule (R144) is its
value, and so many values at distinct points as it has coefficients determine it. -/

namespace Sys2Proof.Machine

open Polynomial

/-- The polynomial with coefficients `q`, constant term first (R144). -/
noncomputable def coeffPoly (p : BitVec 9) (q : List Byte) : (AdjoinRoot (toPoly p))[X] :=
  ∑ j ∈ Finset.range q.length, C (toField p (q.getD j 0)) * X ^ j

theorem coeff_coeffPoly (p : BitVec 9) (q : List Byte) (n : Nat) :
    (coeffPoly p q).coeff n = toField p (q.getD n 0) := by
  simp only [coeffPoly, finsetSum_coeff, coeff_C_mul_X_pow, Finset.sum_ite_eq, Finset.mem_range]
  split_ifs with h
  · rfl
  · rw [List.getD_eq_default _ _ (not_lt.1 h), toField_zero]

theorem degree_coeffPoly_lt (p : BitVec 9) (q : List Byte) : (coeffPoly p q).degree < q.length := by
  rw [degree_lt_iff_coeff_zero]
  intro n hn
  rw [coeff_coeffPoly, List.getD_eq_default _ _ hn, toField_zero]

/-- A running exclusive-or of bytes is a sum in the field. -/
theorem toField_foldl_gfAdd (p : BitVec 9) (f : Nat → Byte) (n : Nat) :
    toField p ((List.range n).foldl (fun r j => gfAdd r (f j)) 0) = ∑ j ∈ Finset.range n, toField p (f j) := by
  induction n with
  | zero => exact toField_zero
  | succ n ih =>
    rw [List.range_succ, List.foldl_append, Finset.sum_range_succ, ← ih]
    exact toField_xor ..

section Legal

variable {p : BitVec 9} (hp : p ∈ Config.legalPolys)
include hp

/-- The Horner rule gives the sum of m_j · x^j (R144). -/
theorem toField_horner_eq_sum (m : List Byte) (x : Byte) :
    toField p (horner p m x) = ∑ j ∈ Finset.range m.length, toField p (m.getD j 0) * toField p x ^ j := by
  induction m with
  | nil => exact toField_zero
  | cons a m ih =>
    rw [horner, List.foldr_cons, ← horner, gfAdd, toField_xor, toField_gfMul hp, ih, List.length_cons,
      Finset.sum_range_succ', Finset.sum_mul]
    simp [pow_succ, mul_assoc]

/-- The Horner rule evaluates the polynomial of the coefficients. -/
theorem toField_horner (q : List Byte) (x : Byte) :
    toField p (horner p q x) = (coeffPoly p q).eval (toField p x) := by
  simp [toField_horner_eq_sum hp, coeffPoly, eval_finsetSum]

/-- Lists of one length with the same polynomial are the same. -/
theorem coeffPoly_inj {q q' : List Byte} (hlen : q'.length = q.length) (h : coeffPoly p q' = coeffPoly p q) :
    q' = q := by
  refine List.ext_getElem hlen fun n hn' hn => toField_injective hp ?_
  have hcoeff := congrArg (coeff · n) h
  simpa only [coeff_coeffPoly, List.getD_eq_getElem _ _ hn', List.getD_eq_getElem _ _ hn] using hcoeff

/-- Every polynomial of degree below `k` has a list of `k` coefficients. -/
theorem exists_coeffPoly_eq {k : Nat} {f : (AdjoinRoot (toPoly p))[X]} (hf : f.degree < k) :
    ∃ q : List Byte, q.length = k ∧ coeffPoly p q = f := by
  choose byteOf hbyteOf using toField_surjective hp
  refine ⟨(List.range k).map fun n => byteOf (f.coeff n), by simp, ?_⟩
  ext n
  rw [coeff_coeffPoly]
  rcases lt_or_ge n k with hn | hn
  · rw [List.getD_eq_getElem _ _ (by simpa using hn)]
    simp [hbyteOf]
  · rw [List.getD_eq_default _ _ (by simpa using hn), toField_zero,
      coeff_eq_zero_of_degree_lt (hf.trans_le (by exact_mod_cast hn))]

end Legal

/-- Settles O24, by the sums in the field. -/
theorem hornerIsPolynomialValue : Obligations.HornerIsPolynomialValue := by
  intro p hp m x
  refine toField_injective hp ?_
  rw [toField_horner_eq_sum hp, toField_foldl_gfAdd]
  exact Finset.sum_congr rfl fun j _ => by rw [toField_gfMul hp, toField_gfPow hp]

end Sys2Proof.Machine
end

section
/-! PROOF. Lagrange evaluation (R140, R141) on bytes is Lagrange interpolation over the field of bytes. -/

namespace Sys2Proof.Machine

open Polynomial

/-- Values that `f` computes without an error are all answered. -/
theorem allSome_map_eq_some {α β : Type} {f : α → Option β} {g : α → β} {l : List α}
    (h : ∀ x ∈ l, f x = some (g x)) : allSome (l.map f) = some (l.map g) := by
  rw [List.map_congr_left h, allSome_map_some]

/-- The nodes of a list of bytes in the field, by their index. -/
noncomputable def nodes (p : BitVec 9) (xs : List Byte) (j : Nat) : AdjoinRoot (toPoly p) := toField p (xs.getD j 0)

section Legal

variable {p : BitVec 9} (hp : p ∈ Config.legalPolys)
include hp

/-- Distinct bytes are distinct nodes. -/
theorem nodes_injOn {xs : List Byte} (hx : xs.Nodup) : Set.InjOn (nodes p xs) (Finset.range xs.length) := by
  intro i hi j hj h
  have hi' : i < xs.length := by simpa using hi
  have hj' : j < xs.length := by simpa using hj
  have h := toField_injective hp h
  rw [List.getD_eq_getElem _ _ hi', List.getD_eq_getElem _ _ hj'] at h
  exact (List.Nodup.getElem_inj_iff hx).1 h

theorem toField_foldl_gfMul (l : List Byte) (a : Byte) :
    toField p (l.foldl (gfMul p) a) = toField p a * (l.map (toField p)).prod := by
  induction l generalizing a with
  | nil => simp
  | cons b l ih => rw [List.foldl_cons, ih, toField_gfMul hp, List.map_cons, List.prod_cons, mul_assoc]

end Legal

theorem toField_gfSub (p : BitVec 9) (a b : Byte) : toField p (gfSub a b) = toField p a - toField p b := by
  rw [eq_sub_iff_add_eq, gfSub, ← toField_xor, BitVec.xor_assoc, BitVec.xor_self, BitVec.xor_zero]

section Field

variable {p : BitVec 9} (hp : p ∈ Config.legalPolys) [Fact (Irreducible (toPoly p))]
variable {xs : List Byte} (hx : xs.Nodup)
include hp hx

/-- One factor of the basis term L_j, for distinct points (R140). -/
theorem toField_basisFactor {j j' : Nat} (hj : j < xs.length) (hj' : j' < xs.length) (hne : j' ≠ j) (x : Byte) :
    ∃ d, gfDiv p (gfSub x (xs.getD j' 0)) (gfSub (xs.getD j 0) (xs.getD j' 0)) = some d ∧
      toField p d = (Lagrange.basisDivisor (nodes p xs j) (nodes p xs j')).eval (toField p x) := by
  have hnode : nodes p xs j - nodes p xs j' ≠ 0 :=
    sub_ne_zero.2 fun h => hne (nodes_injOn hp hx (by simpa using hj) (by simpa using hj') h).symm
  have hden : gfSub (xs.getD j 0) (xs.getD j' 0) ≠ 0 := by
    rwa [Ne, ← toField_eq_zero hp, toField_gfSub]
  refine ⟨_, gfDiv_of_ne_zero p _ hden, ?_⟩
  rw [toField_gfMul hp, toField_gfInv hp hden, toField_gfSub, toField_gfSub]
  simp [Lagrange.basisDivisor, nodes, mul_comm]

/-- The basis term L_j is the Lagrange basis polynomial's value (R140). -/
theorem toField_basis {j : Nat} (hj : j < xs.length) (x : Byte) :
    ∃ b, basis p xs j x = some b ∧
      toField p b = (Lagrange.basis (Finset.range xs.length) (nodes p xs) j).eval (toField p x) := by
  have hfactor := fun j' (h : j' < xs.length ∧ j' ≠ j) => toField_basisFactor hp hx hj h.1 h.2 x
  choose! d hd hd' using hfactor
  have hall := allSome_map_eq_some (g := d) (l := (List.range xs.length).filter (· ≠ j))
    fun j' h => hd j' (by simpa using h)
  refine ⟨_, congrArg (Option.map _) hall, ?_⟩
  rw [toField_foldl_gfMul hp, toField_one, one_mul, List.map_map,
    ← List.prod_toFinset _ (List.nodup_range.filter _), Lagrange.basis, eval_prod]
  have hset : ((List.range xs.length).filter (· ≠ j)).toFinset = (Finset.range xs.length).erase j := by
    ext j'; simp [and_comm]
  rw [hset]
  exact Finset.prod_congr rfl fun j' h => hd' j' (by simpa [and_comm] using h)

/-- Lagrange evaluation is the interpolation polynomial's value (R140, R141). -/
theorem toField_interp (ys : List Byte) (x : Byte) :
    ∃ r, interp p xs ys x = some r ∧
      toField p r = (Lagrange.interpolate (Finset.range xs.length) (nodes p xs) (nodes p ys)).eval (toField p x) := by
  have hbasis := fun j (h : j < xs.length) => toField_basis hp hx h x
  choose! b hb hb' using hbasis
  have hall := allSome_map_eq_some (f := fun j => (basis p xs j x).map (gfMul p (ys.getD j 0)))
    (g := fun j => gfMul p (ys.getD j 0) (b j)) (l := List.range xs.length)
    fun j h => by rw [hb j (List.mem_range.1 h), Option.map_some]
  refine ⟨_, congrArg (Option.map _) hall, ?_⟩
  beta_reduce
  rw [List.foldl_map, toField_foldl_gfAdd, Lagrange.interpolate_apply, eval_finsetSum]
  refine Finset.sum_congr rfl fun j h => ?_
  rw [toField_gfMul hp, hb' j (Finset.mem_range.1 h), eval_mul, eval_C, nodes]

end Field

section Legal

variable {p : BitVec 9} (hp : p ∈ Config.legalPolys) {xs : List Byte} (hx : xs.Nodup)
include hp hx

/-- Values at distinct points determine the polynomial of so many coefficients (R141, R148). -/
theorem eq_of_horner_eq {q q' : List Byte} (hq : q.length = xs.length) (hq' : q'.length = xs.length)
    (h : ∀ x ∈ xs, horner p q' x = horner p q x) : q' = q := by
  have : Fact (Irreducible (toPoly p)) := ⟨irreducible_toPoly hp⟩
  refine coeffPoly_inj hp (hq'.trans hq.symm) ?_
  refine eq_of_degrees_lt_of_eval_index_eq _ (nodes_injOn hp hx) ?_ ?_ fun j hj => ?_
  · simpa [hq'] using degree_coeffPoly_lt p q'
  · simpa [hq] using degree_coeffPoly_lt p q
  · rw [nodes, ← toField_horner hp, ← toField_horner hp, h]
    rw [List.getD_eq_getElem _ _ (by simpa using hj)]
    exact List.getElem_mem _

/-- Lagrange evaluation is the Horner value of one coefficient list, whatever the values (R141). -/
theorem exists_interp_eq_horner (ys : List Byte) : ∃ q : List Byte, q.length = xs.length ∧
    (∀ j < xs.length, horner p q (xs.getD j 0) = ys.getD j 0) ∧
    ∀ x, interp p xs ys x = some (horner p q x) := by
  have : Fact (Irreducible (toPoly p)) := ⟨irreducible_toPoly hp⟩
  have hinj := nodes_injOn hp hx
  have hdeg := Lagrange.degree_interpolate_lt (nodes p ys) hinj
  rw [Finset.card_range] at hdeg
  obtain ⟨q, hlen, hq⟩ := exists_coeffPoly_eq hp hdeg
  refine ⟨q, hlen, fun j hj => toField_injective hp ?_, fun x => ?_⟩
  · rw [toField_horner hp, hq]
    exact Lagrange.eval_interpolate_at_node _ hinj (Finset.mem_range.2 hj)
  · obtain ⟨r, hr, hr'⟩ := toField_interp hp hx ys x
    rw [← hq, ← toField_horner hp] at hr'
    rw [hr, toField_injective hp hr']

/-- Lagrange evaluation through the values of a polynomial of so many coefficients is its Horner value (R141). -/
theorem interp_map_horner {q : List Byte} (hq : q.length = xs.length) (x : Byte) :
    interp p xs (xs.map (horner p q)) x = some (horner p q x) := by
  obtain ⟨q', hlen, hnode, heval⟩ := exists_interp_eq_horner hp hx (xs.map (horner p q))
  have hqq : q' = q := eq_of_horner_eq hp hx hq hlen fun x hmem => by
    obtain ⟨j, hj, rfl⟩ := List.getElem_of_mem hmem
    simpa [hj] using hnode j hj
  rw [heval, hqq]

end Legal

/-- Settles O23, by Lagrange interpolation over the field of bytes. -/
theorem interpolationEvaluatesUniquePolynomial : Obligations.InterpolationEvaluatesUniquePolynomial := by
  intro p hp xs ys _ hx hys
  obtain ⟨q, hlen, hnode, heval⟩ := exists_interp_eq_horner hp hx ys
  have hmap : xs.map (horner p q) = ys := List.ext_getElem (by simp [hys]) fun j hj hj' => by
    rw [List.length_map] at hj
    simpa [hj, hj'] using hnode j hj
  refine ⟨q, hlen, hmap, fun q' hlen' hmap' => ?_, heval, fun t ht => ?_⟩
  · exact eq_of_horner_eq hp hx hlen hlen' (List.map_inj_left.1 (hmap'.trans hmap.symm))
  · rw [heval, hnode t ht]

end Sys2Proof.Machine
end

section
/-! SUPPORT. ENCV and ENCC in one form: the checks of R142, then a codeword of the message and the command's own
parity symbols (R143, R144). -/

namespace Sys2Proof.Machine

section

variable {s : State} {body : List Byte → Answer}

theorem withMessage_of_not_valid (hv : s.configValid = false) :
    withMessage s body = commandFail .notConfigured s := if_pos hv

variable (hv : s.configValid = true)
include hv

theorem withMessage_of_msgLen_ne (hl : s.msgLen ≠ s.configK) :
    withMessage s body = commandFail .invalidInputLength s :=
  (if_neg (by simp [hv])).trans (if_pos hl)

variable (hl : s.msgLen = s.configK)
include hl

theorem withMessage_of_error {f : Fault} (hg : s.gather .msg (List.range s.configK.toNat) = .error f) :
    withMessage s body = .fault f := by simp [withMessage, hv, hl, hg]

theorem withMessage_of_ok {m : List Byte} (hg : s.gather .msg (List.range s.configK.toNat) = .ok m) :
    withMessage s body = body m := by simp [withMessage, hv, hl, hg]

/-- The message's first unwritten entry is the fault (R27, log entry 3). -/
theorem withMessage_of_unwritten {j : Nat} (hj : j < s.configK.toNat)
    (hbelow : ∀ l < j, s.readEntry .msg l ≠ none) (hnone : s.readEntry .msg j = none) :
    withMessage s body = .fault (.unwrittenRead .msg j) := by
  obtain ⟨n, hn⟩ := Nat.exists_eq_add_of_lt hj
  have hsplit : List.range s.configK.toNat = List.range j ++ j :: ((List.range n).map Nat.succ).map (j + ·) := by
    rw [hn, Nat.add_assoc, List.range_add, List.range_succ_eq_map]
    rfl
  exact withMessage_of_error hv hl ((State.gather_eq_error ..).2
    ⟨_, j, _, hsplit, fun l hlj => hbelow l (List.mem_range.1 hlj), hnone, rfl⟩)

end

/-- The parity symbol at `x` of the message `m` of length `k`: ENCV's is the interpolation through the message, ENCC's
the Horner value (R143, R144). -/
def parity (i : Instr) (k : Nat) (m : List Byte) (x : Byte) : Byte :=
  if i = .encv then (interp Config.gfPoly (points (List.range k)) m x).getD 0 else horner Config.gfPoly m x

/-- The codeword of `n` symbols of the message `m` of length `k`: the message, then the parity symbols (R143, R144). -/
def codeword (i : Instr) (k n : Nat) (m : List Byte) : List Byte :=
  (List.range n).map fun j => if j < k then m.getD j 0 else parity i k m (point j)

@[simp] theorem length_codeword (i : Instr) (k n : Nat) (m : List Byte) : (codeword i k n m).length = n := by
  simp [codeword]

theorem getD_codeword (i : Instr) (k : Nat) {n : Nat} (m : List Byte) {j : Nat} (hj : j < n) :
    (codeword i k n m).getD j 0 = if j < k then m.getD j 0 else parity i k m (point j) := by
  rw [List.getD_eq_getElem _ _ (by simpa using hj)]
  simp [codeword]

/-- The first points of a configuration are distinct (R120). -/
theorem points_range_nodup {k : Nat} (hk : k ≤ 255) : (points (List.range k)).Nodup :=
  points_nodup List.nodup_range fun _ hi => (List.mem_range.1 hi).trans_le hk

/-- ENCV's parity symbols meet no division by zero (R143). -/
theorem interp_eq_parity {k : Nat} (hk : k ≤ 255) (m : List Byte) (x : Byte) :
    interp Config.gfPoly (points (List.range k)) m x = some (parity .encv k m x) := by
  obtain ⟨r, hr⟩ := Option.isSome_iff_exists.1 (interp_isSome Config.gfPoly (points_range_nodup hk) m x)
  rw [parity, if_pos rfl, hr, Option.getD_some]

theorem valueCodeword_eq_codeword {k : Nat} (hk : k ≤ 255) (n : Nat) (m : List Byte) :
    valueCodeword Config.gfPoly k n m = some (codeword .encv k n m) := by
  refine allSome_map_eq_some fun j _ => ?_
  rw [interp_eq_parity hk, apply_ite some]

/-- What both encoders are: the checks, then the codeword written (R142 to R144). -/
theorem exec_encoder {i : Instr} (hi : i = .encv ∨ i = .encc) (s : State) :
    exec i s = withMessage s fun m => codewordDone (codeword i s.configK.toNat s.configN.toNat m) s := by
  rcases hi with rfl | rfl
  · change execEncv s = _
    simp only [execEncv, valueCodeword_eq_codeword (Nat.le_of_lt_succ s.configK.isLt)]
  · rfl

/-- The first `n` entries of a buffer, one by one. -/
theorem holds_range_iff {s : State} {b : Buf} {n : Nat} {vs : List Byte} :
    Holds s b (List.range n) vs ↔ vs.length = n ∧ ∀ j < n, s.readEntry b j = some (vs.getD j 0) := by
  constructor
  · intro h
    have hlen : vs.length = n := by simpa using (congrArg List.length h).symm
    refine ⟨hlen, fun j hj => ?_⟩
    have hget := congrArg (·[j]?) h
    simpa [hj, hlen] using hget
  · rintro ⟨rfl, h⟩
    refine List.ext_getElem (by simp) fun j hj hj' => ?_
    rw [List.length_map] at hj'
    simp [h j hj', hj']

/-- What an encoder that completes with codeword `c` does: it writes CW[0..N-1], CW_LEN and CODE, and nothing else. -/
structure Encoded (s : State) (c : List Byte) (t : State) : Prop where
  holds : Holds t .cw (List.range s.configN.toNat) c
  above : ∀ j, s.configN.toNat ≤ j → t.readEntry .cw j = s.readEntry .cw j
  frame : t = { s with cw := t.cw, cwLen := s.configN, statusCode := 0 }

theorem codewordDone_encoded {s : State} {c : List Byte} (hc : c.length = s.configN.toNat) :
    ∃ t, codewordDone c s = .next t ∧ Encoded s c t := by
  refine ⟨_, rfl, holds_range_iff.2 ⟨hc, fun j hj => ?_⟩, fun j hj => ?_, rfl⟩
  · rw [State.readEntry_setStatus, State.readEntry_setCwLen, State.readEntry_writeEntries, if_pos ⟨rfl, hc ▸ hj⟩,
      List.getD_eq_getElem _ _ (hc ▸ hj), List.getElem?_eq_getElem]
  · rw [State.readEntry_setStatus, State.readEntry_setCwLen, State.readEntry_writeEntries_above _ _ (hc ▸ hj)]

section Encoded

variable {s t : State} {c : List Byte} (h : Encoded s c t)
include h

theorem Encoded.readEntry_cw {j : Nat} (hj : j < s.configN.toNat) : t.readEntry .cw j = some (c.getD j 0) :=
  (holds_range_iff.1 h.holds).2 j hj

theorem Encoded.statusCode : t.statusCode = 0 := by rw [h.frame]

theorem Encoded.configK : t.configK = s.configK := by rw [h.frame]

theorem Encoded.cwLen : t.cwLen = s.configN := by rw [h.frame]

theorem Encoded.readEntry_msg (j : Nat) : t.readEntry .msg j = s.readEntry .msg j := by rw [h.frame]; rfl

end Encoded

/-- An encoder whose checks pass on a written message completes. -/
theorem exec_encoder_completes {i : Instr} (hi : i = .encv ∨ i = .encc) {s : State} {m : List Byte}
    (hv : s.configValid = true) (hl : s.msgLen = s.configK) (hm : Holds s .msg (List.range s.configK.toNat) m) :
    ∃ t, exec i s = .next t ∧ Encoded s (codeword i s.configK.toNat s.configN.toNat m) t := by
  rw [exec_encoder hi, withMessage_of_ok hv hl ((State.gather_eq_ok ..).2 hm)]
  exact codewordDone_encoded (length_codeword ..)

/-- An encoder that ends with CODE 0 has written the codeword of the message it read. -/
theorem exec_encoder_success {i : Instr} (hi : i = .encv ∨ i = .encc) {s t : State} (h : exec i s = .next t)
    (h0 : t.statusCode = 0) :
    s.configValid = true ∧ ∃ m, Holds s .msg (List.range s.configK.toNat) m ∧
      Encoded s (codeword i s.configK.toNat s.configN.toNat m) t := by
  rw [exec_encoder hi] at h
  rcases withMessage_cases s _ with ⟨-, e⟩ | ⟨-, -, e⟩ | ⟨-, -, f, -, e⟩ | ⟨hv, -, m, hg, e⟩ <;> rw [e] at h
  · cases h; cases h0
  · cases h; cases h0
  · cases h
  · obtain ⟨t', ht', henc⟩ := codewordDone_encoded (length_codeword i s.configK.toNat s.configN.toNat m)
    cases ht'.symm.trans h
    exact ⟨hv, m, (State.gather_eq_ok ..).1 hg, henc⟩

end Sys2Proof.Machine
end

section
/-! PROOF. The encoders ENCV and ENCC (R142 to R151): when they stop, the codeword they complete with, and its
properties. -/

namespace Sys2Proof.Machine

/-- Settles O29, check by check. -/
theorem encodersCheckInOrder : Obligations.EncodersCheckInOrder := by
  intro i s hi
  rw [exec_encoder hi]
  exact ⟨withMessage_of_not_valid, withMessage_of_msgLen_ne,
    fun hv hl j hj hbelow hnone => withMessage_of_unwritten hv hl hj hbelow hnone⟩

/-- Settles O30: ENCV's parity symbols are the interpolation, which meets no division by zero. -/
theorem encvCompletes : Obligations.EncvCompletes := by
  refine ⟨rfl, fun s m hv hl _ hm => ?_⟩
  obtain ⟨t, ht, hcw, habove, hframe⟩ := exec_encoder_completes (.inl rfl) hv hl hm
  refine ⟨_, t, length_codeword .., fun j hj => ?_, ht, hcw, habove, hframe⟩
  rw [getD_codeword _ _ _ hj, apply_ite some, ← interp_eq_parity (Nat.le_of_lt_succ s.configK.isLt)]
  rfl

/-- Settles O31: ENCC's parity symbols are the Horner values. -/
theorem enccCompletes : Obligations.EnccCompletes := by
  refine ⟨rfl, fun s m hv hl _ hm => ?_⟩
  obtain ⟨t, ht, hcw, habove, hframe⟩ := exec_encoder_completes (.inr rfl) hv hl hm
  exact ⟨_, t, length_codeword .., fun j hj => getD_codeword _ _ _ hj, ht, hcw, habove, hframe⟩

/-- A configuration that is valid has 1 ≤ K ≤ N (R33). -/
theorem kn_bounds_of_valid {s : State} (h : ConfigInv s) (hv : s.configValid = true) :
    1 ≤ s.configK.toNat ∧ s.configK.toNat ≤ s.configN.toNat := by
  rcases h with ⟨hv', -⟩ | ⟨-, hk⟩
  · rw [hv] at hv'; cases hv'
  · exact hk

/-- The first K codeword symbols are the message (R146). -/
theorem Encoded.readEntry_cw_message {i : Instr} {s t : State} {m : List Byte}
    (hm : Holds s .msg (List.range s.configK.toNat) m)
    (henc : Encoded s (codeword i s.configK.toNat s.configN.toNat m) t)
    (hkn : s.configK.toNat ≤ s.configN.toNat) {j : Nat} (hj : j < s.configK.toNat) :
    t.readEntry .cw j = s.readEntry .msg j := by
  have hjn := hj.trans_le hkn
  rw [henc.readEntry_cw hjn, getD_codeword _ _ _ hjn, if_pos hj, (holds_range_iff.1 hm).2 j hj]

/-- Settles O32: the codeword begins with the message, and no encoder writes the message. -/
theorem codewordBeginsWithMessage : Obligations.CodewordBeginsWithMessage := by
  intro i s t hi hinv h h0 j hj
  obtain ⟨hv, m, hm, henc⟩ := exec_encoder_success hi h h0
  rw [henc.configK] at hj
  rw [henc.readEntry_msg, henc.readEntry_cw_message hm (kn_bounds_of_valid hinv hv).2 hj]

/-- The polynomial of one coefficient is constant. -/
theorem horner_singleton {p : BitVec 9} (hp : p ∈ Config.legalPolys) (a x : Byte) : horner p [a] x = a := by
  change gfMul p 0 x ^^^ a = a
  rw [gfMul_comm, gfMul_zero hp]
  exact BitVec.zero_xor

/-- The parity symbols of a message of one symbol are that symbol (R147). -/
theorem parity_singleton (i : Instr) (a x : Byte) : parity i 1 [a] x = a := by
  have hconst := horner_singleton gfPoly_legal a
  unfold parity
  split_ifs
  · have hinterp := interp_map_horner gfPoly_legal (points_range_nodup (k := 1) (by decide)) (q := [a]) rfl x
    have hys : (points (List.range 1)).map (horner Config.gfPoly [a]) = [a] := congrArg (· :: []) (hconst _)
    rw [hys, hconst] at hinterp
    rw [hinterp, Option.getD_some]
  · exact hconst x

/-- Settles O33: with K = 1 the parity symbols are the message's one symbol, and with N = K there are none. -/
theorem encoderBoundaryCases : Obligations.EncoderBoundaryCases := by
  intro i s t hi hinv h h0
  obtain ⟨hv, m, hm, henc⟩ := exec_encoder_success hi h h0
  obtain ⟨-, hkn⟩ := kn_bounds_of_valid hinv hv
  refine ⟨fun hk j hj => ?_, fun hnk => ⟨fun j hj => henc.readEntry_cw_message hm hkn hj,
    fun j hj => henc.above j (hnk ▸ hj)⟩⟩
  have hk1 : s.configK.toNat = 1 := by rw [hk]; rfl
  obtain ⟨hlen, hread⟩ := holds_range_iff.1 hm
  obtain ⟨a, rfl⟩ := List.length_eq_one_iff.1 (hlen.trans hk1)
  rw [henc.readEntry_cw hj, getD_codeword _ _ _ hj, hk1, parity_singleton, hread 0 (by omega)]
  split_ifs with hj1
  · rw [Nat.lt_one_iff.1 hj1]
  · rfl

/-- Settles O34: the message's polynomial takes the codeword's values at all N points. -/
theorem valueFormCodewordIsMds : Obligations.ValueFormCodewordIsMds := by
  intro s t hinv h h0
  have hp := gfPoly_legal
  obtain ⟨hv, m, hm, henc⟩ := exec_encoder_success (.inl rfl) h h0
  obtain ⟨-, hkn⟩ := kn_bounds_of_valid hinv hv
  have hK : s.configK.toNat ≤ 255 := Nat.le_of_lt_succ s.configK.isLt
  obtain ⟨q, hlen, hnode, hinterp⟩ := exists_interp_eq_horner hp (points_range_nodup hK) m
  have hlenK : (points (List.range s.configK.toNat)).length = s.configK.toNat := by simp [points]
  rw [hlenK] at hlen hnode
  have hsym : ∀ j < s.configK.toNat, m.getD j 0 = horner Config.gfPoly q (point j) := fun j hj => by
    simpa [points, hj] using (hnode j hj).symm
  have hcw : ∀ j < s.configN.toNat, t.readEntry .cw j = some (horner Config.gfPoly q (point j)) := fun j hj => by
    rw [henc.readEntry_cw hj, getD_codeword _ _ _ hj, apply_ite some, ← interp_eq_parity hK, hinterp]
    split_ifs with hjk
    · rw [hsym j hjk]
    · rfl
  refine ⟨q, hlen, fun j hj => ?_, hcw, fun is q' hnd hislen his hlen' => ?_⟩
  · rw [(holds_range_iff.1 hm).2 j hj, hsym j hj]
  · have hnodup : (points is).Nodup := points_nodup hnd fun j hj =>
      (his j hj).1.trans_le (Nat.le_of_lt_succ s.configN.isLt)
    have hislen' : (points is).length = s.configK.toNat := by rw [points, List.length_map, hislen]
    refine eq_of_horner_eq hp hnodup (hlen.trans hislen'.symm) (hlen'.trans hislen'.symm) fun x hx => ?_
    obtain ⟨j, hj, rfl⟩ := List.mem_map.1 hx
    obtain ⟨hjn, hval⟩ := his j hj
    exact Option.some_inj.1 (hval.symm.trans (hcw j hjn))

/-- Gathering depends on the entries gathered alone. -/
theorem State.gather_congr {s u : State} {b : Buf} {is : List Nat}
    (h : ∀ j ∈ is, u.readEntry b j = s.readEntry b j) : u.gather b is = s.gather b is := by
  induction is with
  | nil => rfl
  | cons j is ih =>
    rw [List.forall_mem_cons] at h
    simp only [State.gather, h.1, ih h.2]

/-- Settles O36: in both states the checks pick the same branch, and the same message gives the same codeword. -/
theorem encoderDependsOnMessageOnly : Obligations.EncoderDependsOnMessageOnly := by
  rintro i s u hi ⟨hk, hn, hv⟩ hl hmsg
  have hg : u.gather .msg (List.range u.configK.toNat) = s.gather .msg (List.range s.configK.toNat) := by
    rw [hk]
    exact State.gather_congr fun j hj => hmsg j (List.mem_range.1 hj)
  simp only [exec_encoder hi]
  rcases withMessage_cases s _ with ⟨hvs, e⟩ | ⟨hvs, hls, e⟩ | ⟨hvs, hls, f, hf, e⟩ | ⟨hvs, hls, m, hm, e⟩ <;> rw [e]
  · rw [withMessage_of_not_valid (hv.trans hvs)]
    exact ⟨rfl, fun h => by cases h⟩
  · rw [withMessage_of_msgLen_ne (hv.trans hvs) (by rwa [hl, hk])]
    exact ⟨rfl, fun h => by cases h⟩
  · rw [withMessage_of_error (hv.trans hvs) (by rw [hl, hk, hls]) (hg.trans hf)]
  · rw [withMessage_of_ok (hv.trans hvs) (by rw [hl, hk, hls]) (hg.trans hm), hk, hn]
    obtain ⟨t, ht, henc⟩ := codewordDone_encoded (length_codeword i s.configK.toNat s.configN.toNat m)
    have hlen : (codeword i s.configK.toNat s.configN.toNat m).length = u.configN.toNat := by rw [length_codeword, hn]
    obtain ⟨v, ht', henc'⟩ := codewordDone_encoded hlen
    rw [ht, ht']
    refine ⟨henc'.statusCode.trans henc.statusCode.symm, fun _ => ⟨?_, fun j hj => ?_⟩⟩
    · rw [henc'.cwLen, henc.cwLen, hn]
    · rw [henc.readEntry_cw hj, henc'.readEntry_cw (hn ▸ hj)]

end Sys2Proof.Machine
end

section
/-! PROOF. The coefficient form is not decodable (R149, R164): the products of the two examples need no reduction, so
their values are the same under every legal polynomial. -/

namespace Sys2Proof.Machine

/-- The Horner rule by carry-less products alone, as long as each fits a byte. -/
def plainHorner : List Byte → Byte → Option Byte
  | [], _ => some 0
  | a :: m, x => (plainHorner m x).bind fun r =>
    if clmul r x < 0x100 then some (gfAdd ((clmul r x).setWidth 8) a) else none

/-- Where no product needs a reduction, the Horner value is the same under every polynomial. -/
theorem horner_of_plainHorner (p : BitVec 9) {m : List Byte} {x r : Byte} (h : plainHorner m x = some r) :
    horner p m x = r := by
  induction m generalizing r with
  | nil => exact Option.some_inj.1 h
  | cons a m ih =>
    obtain ⟨r', hr', h⟩ := Option.bind_eq_some_iff.1 h
    split_ifs at h with hlt
    rw [horner, List.foldr_cons, ← horner, ih hr', gfMul_of_clmul_lt p hlt]
    exact Option.some_inj.1 h

theorem coeffCodeword_getElem? (p : BitVec 9) (k : Nat) {n i : Nat} (hi : i < n) (m : List Byte) :
    (coeffCodeword p k n m)[i]? = some (if i < k then m.getD i 0 else horner p m (point i)) := by
  simp [coeffCodeword, hi]

/-- "p vanishes at the points 5, 6 and 0x0A of positions 4, 5 and 9, and m[1] = 0" (R149), as the zero message's does. -/
theorem coeffCodeword_eq_zero (p : BitVec 9) {i : Nat} (hi : i ∈ [1, 4, 5, 9]) {m : List Byte}
    (hm : m ∈ ([[0xCC, 0x00, 0x09, 0x01], [0x00, 0x00, 0x00, 0x00]] : List (List Byte))) :
    (coeffCodeword p 4 12 m)[i]? = some 0 := by
  have hsym : ∀ i ∈ [1, 4, 5, 9], ∀ m ∈ ([[0xCC, 0x00, 0x09, 0x01], [0x00, 0x00, 0x00, 0x00]] : List (List Byte)),
      i < 12 ∧ if i < 4 then m.getD i 0 = 0 else plainHorner m (point i) = some 0 := by decide
  obtain ⟨hlt, h⟩ := hsym i hi m hm
  rw [coeffCodeword_getElem? p 4 hlt]
  split_ifs at h ⊢
  · rw [h]
  · rw [horner_of_plainHorner p h]

/-- Settles O35: the last two symbols 70 90 of 10 20 70 90 lie on the line 10 + 20·x, whose values at the points of
positions 0 and 1 are 30 and 50 (R164). -/
theorem coefficientFormIsNotDecodable : Obligations.CoefficientFormIsNotDecodable := by
  intro p hp
  have hline {x r : Byte} (h : plainHorner [0x10, 0x20] x = some r) := horner_of_plainHorner p h
  have h3 : horner p [0x10, 0x20] (point 2) = 0x70 := hline (by decide)
  have h4 : horner p [0x10, 0x20] (point 3) = 0x90 := hline (by decide)
  refine ⟨fun i hi => ⟨coeffCodeword_eq_zero p hi (by decide), coeffCodeword_eq_zero p hi (by decide)⟩, ?_, ?_⟩
  · change [0x10, 0x20, horner p _ (point 2), horner p _ (point 3)] = _
    rw [h3, h4]
  · have hinterp := interp_map_horner hp (xs := points (lastPositions 2 4)) (by decide) (q := [0x10, 0x20]) rfl
    have hvals : (points (lastPositions 2 4)).map (horner p [0x10, 0x20]) = [0x70, 0x90] := by
      change [horner p _ (point 2), horner p _ (point 3)] = _
      rw [h3, h4]
    simp only [hvals] at hinterp
    simp only [decodedMessage, hinterp, allSome_map_some]
    change some [horner p _ (point 0), horner p _ (point 1)] = _
    rw [hline (x := point 0) (r := 0x30) (by decide), hline (x := point 1) (r := 0x50) (by decide)]

end Sys2Proof.Machine
end

section
/-! PROOF. DEC's selection (R162): the list entries sorted by their shard index, and the first K of them. -/

namespace Sys2Proof.Machine

/-- The entries of the list `idx`, those with the smaller shard indices first (R162). -/
def sortedEntries (idx : List Nat) : List Nat :=
  (List.range idx.length).insertionSort fun e e' => idx.getD e 0 ≤ idx.getD e' 0

theorem selectEntries_eq_take (k : Nat) (idx : List Nat) : selectEntries k idx = (sortedEntries idx).take k := rfl

theorem perm_sortedEntries (idx : List Nat) : (sortedEntries idx).Perm (List.range idx.length) :=
  List.perm_insertionSort ..

theorem pairwise_sortedEntries_le (idx : List Nat) :
    (sortedEntries idx).Pairwise fun e e' => idx.getD e 0 ≤ idx.getD e' 0 := by
  have : Std.Total fun e e' : Nat => idx.getD e 0 ≤ idx.getD e' 0 := ⟨fun _ _ => Nat.le_total ..⟩
  have : IsTrans Nat fun e e' => idx.getD e 0 ≤ idx.getD e' 0 := ⟨fun _ _ _ => Nat.le_trans⟩
  exact List.pairwise_insertionSort ..

/-- Entries of a list of distinct indices are told apart by their index. -/
theorem getD_injOn {idx : List Nat} (hn : idx.Nodup) {e e' : Nat} (he : e < idx.length) (he' : e' < idx.length)
    (h : idx.getD e 0 = idx.getD e' 0) : e = e' := by
  rw [List.getD_eq_getElem _ _ he, List.getD_eq_getElem _ _ he'] at h
  exact (List.Nodup.getElem_inj_iff hn).1 h

/-- Distinct indices are sorted strictly. -/
theorem pairwise_sortedEntries {idx : List Nat} (hn : idx.Nodup) :
    (sortedEntries idx).Pairwise fun e e' => idx.getD e 0 < idx.getD e' 0 := by
  have hmem : ∀ e ∈ sortedEntries idx, e < idx.length := fun e he =>
    List.mem_range.1 ((perm_sortedEntries idx).mem_iff.1 he)
  have hnodup : (sortedEntries idx).Nodup := (perm_sortedEntries idx).nodup_iff.2 List.nodup_range
  refine (hnodup.and (pairwise_sortedEntries_le idx)).imp_of_mem fun he he' ⟨hne, hle⟩ => ?_
  exact lt_of_le_of_ne hle fun h => hne (getD_injOn hn (hmem _ he) (hmem _ he') h)

theorem selectEntries_isSelection {k : Nat} {idx : List Nat} (hn : idx.Nodup) (hk : k ≤ idx.length) :
    IsSelection k idx (selectEntries k idx) := by
  have hsplit : (selectEntries k idx ++ (sortedEntries idx).drop k).Pairwise
      fun e e' => idx.getD e 0 < idx.getD e' 0 := by
    rw [selectEntries_eq_take, List.take_append_drop]
    exact pairwise_sortedEntries hn
  obtain ⟨hsel, -, hrest⟩ := List.pairwise_append.1 hsplit
  refine ⟨?_, fun e he => selectEntries_lt he, List.pairwise_map.2 hsel, fun e he hout e' he' => ?_⟩
  · rw [selectEntries_eq_take, List.length_take, (perm_sortedEntries idx).length_eq, List.length_range, min_eq_left hk]
  · refine hrest e' he' e ?_
    have hall : e ∈ sortedEntries idx := (perm_sortedEntries idx).mem_iff.2 (List.mem_range.2 he)
    rw [← List.take_append_drop k (sortedEntries idx)] at hall
    exact (List.mem_append.1 hall).resolve_left hout

/-- A selection holds no entry twice. -/
theorem nodup_of_isSelection {k : Nat} {idx sel : List Nat} (h : IsSelection k idx sel) : sel.Nodup := by
  obtain ⟨-, -, hlt, -⟩ := h
  exact List.Nodup.of_map _ (hlt.imp Nat.ne_of_lt)

/-- Of two selections the second holds every entry of the first: else each would hold an entry with an index below
one of the other's. -/
theorem isSelection_subset {k : Nat} {idx sel sel' : List Nat} (h : IsSelection k idx sel)
    (h' : IsSelection k idx sel') : sel ⊆ sel' := by
  have hnd' := nodup_of_isSelection h'
  obtain ⟨hlen, hmem, -, hout⟩ := h
  obtain ⟨hlen', hmem', -, hout'⟩ := h'
  intro e he
  by_contra hne
  have hsub : ¬ sel' ⊆ sel := fun hsub =>
    hne (((List.subperm_of_subset hnd' hsub).perm_of_length_le (by rw [hlen, hlen'])).mem_iff.2 he)
  obtain ⟨e', he', hne'⟩ : ∃ e' ∈ sel', e' ∉ sel := by simpa [List.subset_def] using hsub
  exact Nat.lt_asymm (hout e' (hmem' e' he') hne' e he) (hout' e (hmem e he) hne e' he')

/-- There is one selection only. -/
theorem isSelection_unique {k : Nat} {idx sel sel' : List Nat} (h : IsSelection k idx sel)
    (h' : IsSelection k idx sel') : sel = sel' := by
  have hperm : sel.Perm sel' := (List.perm_ext_iff_of_nodup (nodup_of_isSelection h) (nodup_of_isSelection h')).2
    fun _ => ⟨fun he => isSelection_subset h h' he, fun he => isSelection_subset h' h he⟩
  obtain ⟨-, -, hlt, -⟩ := h
  obtain ⟨-, -, hlt', -⟩ := h'
  rw [List.pairwise_map] at hlt hlt'
  exact hperm.eq_of_pairwise (fun _ _ _ _ hab hba => absurd hab (Nat.lt_asymm hba)) hlt hlt'

/-- Settles O39: the first K of the sorted entries are a selection, and there is one only. -/
theorem selectionIsTheSmallestIndices : Obligations.SelectionIsTheSmallestIndices := by
  intro k idx hn hk
  have h := selectEntries_isSelection hn hk
  exact ⟨h, fun sel hsel => isSelection_unique hsel h⟩

end Sys2Proof.Machine
end

section
/-! SUPPORT. DEC and DECL in one form (R160, R161): the checks, then the message interpolated through distinct
points. -/

namespace Sys2Proof.Machine

theorem exec_dec (s : State) : exec .dec s = execDec s := rfl

/-- Values computed over a list without an error, one by one. -/
theorem apply_eq_of_map_eq_map_some {α : Type} {f : α → Option Byte} {l : List α} {vs : List Byte}
    (h : l.map f = vs.map some) {j : Nat} {x : α} (hx : l[j]? = some x) : f x = some (vs.getD j 0) := by
  have hget : some (f x) = vs[j]?.map some := by simpa [hx] using congrArg (·[j]?) h
  obtain ⟨v, hv, hfx⟩ := Option.map_eq_some_iff.1 hget.symm
  rw [← hfx, List.getD_eq_getElem?_getD, hv, Option.getD_some]

theorem map_range_eq_map_some_iff {f : Nat → Option Byte} {n : Nat} {vs : List Byte} :
    (List.range n).map f = vs.map some ↔ vs.length = n ∧ ∀ j < n, f j = some (vs.getD j 0) := by
  constructor
  · intro h
    exact ⟨by simpa using (congrArg List.length h).symm,
      fun j hj => apply_eq_of_map_eq_map_some h (List.getElem?_range hj)⟩
  · rintro ⟨rfl, h⟩
    refine List.ext_getElem (by simp) fun j hj hj' => ?_
    rw [List.length_map] at hj'
    simp [h j hj', hj']

/-- One list of values only stands in a list of entries. -/
theorem holds_unique {s : State} {b : Buf} {is : List Nat} {vs ws : List Byte} (h : Holds s b is vs)
    (h' : Holds s b is ws) : vs = ws :=
  List.map_injective_iff.2 (Option.some_injective _) (h.symm.trans h')

/-- The first unwritten entry of a run of entries is the fault (R27, log entry 3). -/
theorem gather_range'_of_unwritten {s : State} {b : Buf} {a n j : Nat} (haj : a ≤ j) (hjn : j < a + n)
    (hbelow : ∀ l < j, a ≤ l → s.readEntry b l ≠ none) (hnone : s.readEntry b j = none) :
    s.gather b (List.range' a n) = .error (.unwrittenRead b j) := by
  obtain ⟨m, rfl⟩ := Nat.exists_eq_add_of_le haj
  obtain ⟨r, rfl⟩ := Nat.exists_eq_add_of_lt (Nat.lt_of_add_lt_add_left hjn)
  refine (State.gather_eq_error ..).2
    ⟨List.range' a m, a + m, List.range' (a + m + 1) r, ?_, fun l hl => ?_, hnone, rfl⟩
  · rw [← List.range'_succ, List.range'_append_1, Nat.add_assoc]
  · obtain ⟨hal, hlm⟩ := List.mem_range'_1.1 hl
    exact hbelow l hlm hal

/-- Interpolation at a node gives the node's value (R141). -/
theorem interp_node {p : BitVec 9} (hp : p ∈ Config.legalPolys) {xs : List Byte} (hx : xs.Nodup) (ys : List Byte)
    {j : Nat} (hj : j < xs.length) : interp p xs ys (xs.getD j 0) = some (ys.getD j 0) := by
  obtain ⟨q, -, hnode, heval⟩ := exists_interp_eq_horner hp hx ys
  rw [heval, hnode j hj]

/-- What a decoder that completes from the points `xs` with values `ys` does: it writes the interpolated message `r` to
MSG[0..K-1], MSG_LEN and CODE, and nothing else. -/
structure Decoded (s : State) (xs ys r : List Byte) (t : State) : Prop where
  length : r.length = s.configK.toNat
  interpolates : ∀ i < s.configK.toNat, some (r.getD i 0) = interp Config.gfPoly xs ys (point i)
  holds : Holds t .msg (List.range s.configK.toNat) r
  above : ∀ i, s.configK.toNat ≤ i → t.readEntry .msg i = s.readEntry .msg i
  frame : t = { s with msg := t.msg, msgLen := s.configK, statusCode := 0 }

section Decoded

variable {s t : State} {xs ys r : List Byte} (h : Decoded s xs ys r t)
include h

theorem Decoded.readEntry_msg {i : Nat} (hi : i < s.configK.toNat) :
    t.readEntry .msg i = interp Config.gfPoly xs ys (point i) := by
  rw [← h.interpolates i hi, (holds_range_iff.1 h.holds).2 i hi]

theorem Decoded.statusCode : t.statusCode = 0 := by rw [h.frame]

theorem Decoded.msgLen : t.msgLen = s.configK := by rw [h.frame]

end Decoded

/-- Decoding from the same points and values under the same K gives the same message (R165). -/
theorem Decoded.agree {s t u v : State} {xs ys r r' : List Byte} (h : Decoded s xs ys r t) (h' : Decoded u xs ys r' v)
    (hk : u.configK = s.configK) :
    v.msgLen = t.msgLen ∧ ∀ j < s.configK.toNat, v.readEntry .msg j = t.readEntry .msg j := by
  refine ⟨by rw [h'.msgLen, h.msgLen, hk], fun j hj => ?_⟩
  rw [h.readEntry_msg hj, h'.readEntry_msg (hk ▸ hj)]

/-- Decoding from the values of a polynomial of so many coefficients gives its values (R163). -/
theorem Decoded.readEntry_msg_horner {s t : State} {xs q r : List Byte}
    (h : Decoded s xs (xs.map (horner Config.gfPoly q)) r t) (hx : xs.Nodup) (hq : q.length = xs.length) {i : Nat}
    (hi : i < s.configK.toNat) : t.readEntry .msg i = some (horner Config.gfPoly q (point i)) := by
  rw [h.readEntry_msg hi, interp_map_horner gfPoly_legal hx hq]

/-- Decoding from distinct positions completes (R160, R161). -/
theorem decodeFrom_decoded {is : List Nat} (hn : is.Nodup) (hb : ∀ i ∈ is, i < 255) (ys : List Byte) (s : State) :
    ∃ r t, decodeFrom is ys s = .next t ∧ Decoded s (points is) ys r t := by
  obtain ⟨r, hr, e⟩ := decodeFrom_eq hn hb ys s
  obtain ⟨hlen, hinterp⟩ := map_range_eq_map_some_iff.1 hr
  refine ⟨r, _, e, hlen, fun i hi => (hinterp i hi).symm, holds_range_iff.2 ⟨hlen, fun i hi => ?_⟩,
    fun i hi => ?_, rfl⟩
  · rw [State.readEntry_setStatus, State.readEntry_setMsgLen, State.readEntry_writeEntries, if_pos ⟨rfl, hlen ▸ hi⟩,
      List.getD_eq_getElem _ _ (hlen ▸ hi), List.getElem?_eq_getElem]
  · rw [State.readEntry_setStatus, State.readEntry_setMsgLen, State.readEntry_writeEntries_above _ _ (hlen ▸ hi)]

end Sys2Proof.Machine
end

section
/-! PROOF. DECL (R161, R167). -/

namespace Sys2Proof.Machine

section

variable {s : State}

theorem execDecl_of_not_valid (hv : s.configValid = false) : execDecl s = commandFail .notConfigured s := if_pos hv

variable (hv : s.configValid = true)
include hv

theorem execDecl_of_cwLen_ne (hl : s.cwLen ≠ s.configN) : execDecl s = commandFail .invalidInputLength s :=
  (if_neg (by simp [hv])).trans (if_pos hl)

variable (hl : s.cwLen = s.configN)
include hl

theorem execDecl_of_error {f : Fault} (hg : s.gather .cw (lastPositions s.configK.toNat s.configN.toNat) = .error f) :
    execDecl s = .fault f := by simp [execDecl, hv, hl, hg]

/-- DECL on a codeword whose last K positions are written completes (R161). -/
theorem execDecl_of_holds {ys : List Byte}
    (hys : Holds s .cw (lastPositions s.configK.toNat s.configN.toNat) ys) :
    ∃ r t, execDecl s = .next t ∧ Decoded s (points (lastPositions s.configK.toNat s.configN.toNat)) ys r t := by
  have hdecl : execDecl s = decodeFrom (lastPositions s.configK.toNat s.configN.toNat) ys s := by
    simp [execDecl, hv, hl, (State.gather_eq_ok ..).2 hys]
  rw [hdecl]
  exact decodeFrom_decoded (lastPositions_nodup ..) (fun i hi => lastPositions_lt
    (Nat.le_of_lt_succ s.configK.isLt) (Nat.le_of_lt_succ s.configN.isLt) hi) ys s

end

/-- A DECL that ends with CODE 0 has decoded the values of the last K positions. -/
theorem execDecl_success {s t : State} (h : execDecl s = .next t) (h0 : t.statusCode = 0) :
    s.configValid = true ∧ ∃ ys r, Holds s .cw (lastPositions s.configK.toNat s.configN.toNat) ys ∧
      Decoded s (points (lastPositions s.configK.toNat s.configN.toNat)) ys r t := by
  rcases execDecl_cases s with ⟨-, e⟩ | ⟨-, -, e⟩ | ⟨hv, hl, ⟨f, -, e⟩ | ⟨ys, hg, -⟩⟩
  · cases e.symm.trans h; cases h0
  · cases e.symm.trans h; cases h0
  · cases e.symm.trans h
  · have hys := (State.gather_eq_ok ..).1 hg
    obtain ⟨r, t', ht', hdec⟩ := execDecl_of_holds hv hl hys
    cases ht'.symm.trans h
    exact ⟨hv, ys, r, hys, hdec⟩

theorem lastPositions_eq_map (k n : Nat) : lastPositions k n = (List.range k).map (n - k + ·) :=
  List.range'_eq_map_range

/-- The values of the last K positions, one by one. -/
theorem holds_lastPositions_iff {s : State} {k n : Nat} {ys : List Byte} : Holds s .cw (lastPositions k n) ys ↔
    ys.length = k ∧ ∀ e < k, s.readEntry .cw (n - k + e) = some (ys.getD e 0) := by
  rw [Holds, lastPositions_eq_map, List.map_map]
  exact map_range_eq_map_some_iff

/-- Settles O40, check by check. -/
theorem declChecksInOrder : Obligations.DeclChecksInOrder := by
  refine ⟨rfl, fun s => ⟨execDecl_of_not_valid, execDecl_of_cwLen_ne,
    fun hv hl hinv j hj haj hbelow hnone => ?_⟩⟩
  obtain ⟨-, hkn⟩ := kn_bounds_of_valid hinv hv
  exact execDecl_of_error hv hl (gather_range'_of_unwritten haj (by omega) hbelow hnone)

/-- Settles O41: the values of the last K positions are those DECL decodes from. -/
theorem declCompletes : Obligations.DeclCompletes := by
  intro s ys _ hv hl hlen hys
  obtain ⟨r, t, ht, hdec⟩ := execDecl_of_holds hv hl (holds_lastPositions_iff.2 ⟨hlen, hys⟩)
  rw [points, lastPositions_eq_map, List.map_map] at hdec
  exact ⟨r, t, hdec.length, hdec.interpolates, ht, hdec.holds, hdec.above, hdec.frame⟩

end Sys2Proof.Machine
end

section
/-! PROOF. DEC (R160 to R168): when it stops, the message it completes with, and what that depends on. -/

namespace Sys2Proof.Machine

/-- The shard indices of the entries `sel` of the list `raw`. -/
def selectedIndices (raw : List Byte) (sel : List Nat) : List Nat := sel.map fun e => (raw.getD e 0).toNat

theorem map_getD_eq_selectedIndices (raw : List Byte) (sel : List Nat) :
    (sel.map fun e => (raw.map BitVec.toNat).getD e 0) = selectedIndices raw sel :=
  List.map_congr_left fun _ _ => List.getD_map raw 0 BitVec.toNat

theorem nodup_map_toNat_iff {raw : List Byte} : (raw.map BitVec.toNat).Nodup ↔ raw.Nodup :=
  List.nodup_map_iff fun _ _ => BitVec.eq_of_toNat_eq

@[simp] theorem length_selectedIndices (raw : List Byte) (sel : List Nat) :
    (selectedIndices raw sel).length = sel.length := List.length_map ..

theorem selectedIndices_nodup_of_isSelection {k : Nat} {raw : List Byte} {sel : List Nat}
    (h : IsSelection k (raw.map BitVec.toNat) sel) : (selectedIndices raw sel).Nodup := by
  obtain ⟨-, -, hlt, -⟩ := h
  rw [← map_getD_eq_selectedIndices]
  exact hlt.imp Nat.ne_of_lt

/-- The shard list `raw` passes DEC's checks: as many entries as K at least, indices written, distinct and below N
(R160). -/
structure GoodList (s : State) (raw : List Byte) : Prop where
  valid : s.configValid = true
  count : s.configK.toNat ≤ s.shCnt.toNat
  holds : Holds s .shIdx (List.range s.shCnt.toNat) raw
  bound : ∀ x ∈ raw, x.toNat < s.configN.toNat
  nodup : raw.Nodup

section Checks

variable {s : State}

theorem execDec_of_not_valid (hv : s.configValid = false) : execDec s = commandFail .notConfigured s := if_pos hv

variable (hv : s.configValid = true)
include hv

theorem execDec_of_shCnt_lt (hc : s.shCnt.toNat < s.configK.toNat) : execDec s = commandFail .insufficientShards s :=
  (if_neg (by simp [hv])).trans (if_pos hc)

variable (hc : s.configK.toNat ≤ s.shCnt.toNat)
include hc

theorem execDec_of_index_error {f : Fault} (hg : s.gather .shIdx (List.range s.shCnt.toNat) = .error f) :
    execDec s = .fault f := by simp [execDec, hv, Nat.not_lt.2 hc, hg]

/-- An index that is not below N or stands twice in the list is DuplicateOrInvalidIndex (R160). -/
theorem execDec_of_bad_index {raw : List Byte} (hraw : Holds s .shIdx (List.range s.shCnt.toNat) raw)
    (hbad : (∃ x ∈ raw, s.configN.toNat ≤ x.toNat) ∨ ¬ raw.Nodup) :
    execDec s = commandFail .duplicateOrInvalidIndex s := by
  have hg := (State.gather_eq_ok ..).2 hraw
  by_cases hbound : ∃ x ∈ raw, s.configN.toNat ≤ x.toNat
  · simp [execDec, hv, Nat.not_lt.2 hc, hg, hbound]
  · simp [execDec, hv, Nat.not_lt.2 hc, hg, nodup_map_toNat_iff, hbad.resolve_left hbound]

end Checks

section GoodList

variable {s : State} {raw : List Byte} (h : GoodList s raw)
include h

theorem GoodList.length : raw.length = s.shCnt.toNat := (holds_range_iff.1 h.holds).1

theorem GoodList.not_exists_index_ge : ¬ ∃ x ∈ raw, s.configN.toNat ≤ x.toNat :=
  fun ⟨x, hx, hle⟩ => absurd (h.bound x hx) (Nat.not_lt.2 hle)

theorem GoodList.isSelection_selectEntries : IsSelection s.configK.toNat (raw.map BitVec.toNat)
    (selectEntries s.configK.toNat (raw.map BitVec.toNat)) :=
  selectEntries_isSelection (nodup_map_toNat_iff.2 h.nodup) (by rw [List.length_map, h.length]; exact h.count)

theorem GoodList.exists_isSelection : ∃ sel, IsSelection s.configK.toNat (raw.map BitVec.toNat) sel :=
  ⟨_, h.isSelection_selectEntries⟩

/-- A list that is good in one state is good in every state of the same configuration that holds its indices. -/
theorem GoodList.congr {u : State} (hconfig : SameConfig s u) (hcnt : u.shCnt = s.shCnt)
    (hholds : Holds u .shIdx (List.range u.shCnt.toNat) raw) : GoodList u raw := by
  obtain ⟨hk, hn, hv⟩ := hconfig
  exact ⟨hv.trans h.valid, by rw [hk, hcnt]; exact h.count, hholds, by rw [hn]; exact h.bound, h.nodup⟩

variable {sel : List Nat} (hsel : IsSelection s.configK.toNat (raw.map BitVec.toNat) sel)
include hsel

theorem GoodList.selectEntries_eq : selectEntries s.configK.toNat (raw.map BitVec.toNat) = sel :=
  isSelection_unique h.isSelection_selectEntries hsel

/-- DEC on a good list gathers the selected values and decodes from them (R160). -/
theorem GoodList.execDec_of_gather :
    (∀ f, s.gather .shVal sel = .error f → execDec s = .fault f) ∧
    ∀ ys, s.gather .shVal sel = .ok ys → execDec s = decodeFrom (selectedIndices raw sel) ys s := by
  constructor <;> intro _ hg <;>
    simp [execDec, h.valid, Nat.not_lt.2 h.count, (State.gather_eq_ok ..).2 h.holds, h.not_exists_index_ge,
      nodup_map_toNat_iff, h.nodup, h.selectEntries_eq hsel, hg, ← map_getD_eq_selectedIndices]

/-- The fault of gathering the selected values is DEC's (R160, log entry 3). -/
theorem GoodList.execDec_of_value_error {f : Fault} (hg : s.gather .shVal sel = .error f) : execDec s = .fault f :=
  (h.execDec_of_gather hsel).1 f hg

/-- The selected indices are below N. -/
theorem GoodList.lt_of_mem_selectedIndices {i : Nat} (hi : i ∈ selectedIndices raw sel) : i < s.configN.toNat := by
  obtain ⟨e, he, rfl⟩ := List.mem_map.1 hi
  obtain ⟨-, hmem, -⟩ := hsel
  have hlt : e < raw.length := by simpa using hmem e he
  rw [List.getD_eq_getElem _ _ hlt]
  exact h.bound _ (List.getElem_mem hlt)

theorem GoodList.lt_255_of_mem_selectedIndices {i : Nat} (hi : i ∈ selectedIndices raw sel) : i < 255 :=
  (h.lt_of_mem_selectedIndices hsel hi).trans_le (Nat.le_of_lt_succ s.configN.isLt)

theorem GoodList.selectedPoints_nodup : (points (selectedIndices raw sel)).Nodup :=
  points_nodup (selectedIndices_nodup_of_isSelection hsel) fun _ => h.lt_255_of_mem_selectedIndices hsel

/-- DEC on a good list whose selected values are written completes (R160). -/
theorem GoodList.execDec_of_holds {ys : List Byte} (hys : Holds s .shVal sel ys) :
    ∃ r t, execDec s = .next t ∧ Decoded s (points (selectedIndices raw sel)) ys r t := by
  rw [(h.execDec_of_gather hsel).2 ys ((State.gather_eq_ok ..).2 hys)]
  exact decodeFrom_decoded (selectedIndices_nodup_of_isSelection hsel)
    (fun _ => h.lt_255_of_mem_selectedIndices hsel) ys s

end GoodList

/-- A DEC that ends with CODE 0 has decoded the selected values of a good list. -/
theorem execDec_success {s t : State} (h : execDec s = .next t) (h0 : t.statusCode = 0) :
    ∃ raw, GoodList s raw ∧ ∀ sel, IsSelection s.configK.toNat (raw.map BitVec.toNat) sel →
      ∃ ys r, Holds s .shVal sel ys ∧ Decoded s (points (selectedIndices raw sel)) ys r t := by
  rcases execDec_cases s with ⟨-, e⟩ | ⟨-, -, e⟩ | ⟨hv, hc, ⟨f, -, e⟩ | ⟨raw, hraw, ⟨-, e⟩ |
    ⟨hb, hn, ⟨f, -, e⟩ | ⟨ys, hys, -⟩⟩⟩⟩
  · cases e.symm.trans h; cases h0
  · cases e.symm.trans h; cases h0
  · cases e.symm.trans h
  · cases e.symm.trans h; cases h0
  · cases e.symm.trans h
  · have hgood : GoodList s raw := ⟨hv, hc, (State.gather_eq_ok ..).1 hraw, hb, nodup_map_toNat_iff.1 hn⟩
    refine ⟨raw, hgood, fun sel hsel => ?_⟩
    rw [hgood.selectEntries_eq hsel] at hys
    have hys' := (State.gather_eq_ok ..).1 hys
    obtain ⟨r, t', ht', hdec⟩ := hgood.execDec_of_holds hsel hys'
    cases ht'.symm.trans h
    exact ⟨ys, r, hys', hdec⟩

/-- Settles O37, check by check. -/
theorem decChecksInOrder : Obligations.DecChecksInOrder := by
  refine fun s => ⟨execDec_of_not_valid, execDec_of_shCnt_lt, fun hv hc e he hbelow hnone => ?_,
    fun raw hv hc hraw => ⟨execDec_of_bad_index hv hc hraw, fun sel l r e hb hn hsel hsplit hwritten hnone => ?_⟩⟩
  · refine execDec_of_index_error hv hc ?_
    rw [List.range_eq_range']
    exact gather_range'_of_unwritten (Nat.zero_le e) (by omega) (fun l hl _ => hbelow l hl) hnone
  · exact GoodList.execDec_of_value_error ⟨hv, hc, hraw, hb, hn⟩ hsel
      ((State.gather_eq_error ..).2 ⟨l, e, r, hsplit, hwritten, hnone, rfl⟩)

/-- Settles O38: the selected values of a good list are those DEC decodes from. -/
theorem decCompletes : Obligations.DecCompletes := by
  refine ⟨rfl, fun s raw ys sel hv hc hraw hb hn hsel hys => ?_⟩
  obtain ⟨r, t, ht, hdec⟩ := GoodList.execDec_of_holds ⟨hv, hc, hraw, hb, hn⟩ hsel hys
  rw [points, selectedIndices, List.map_map] at hdec
  exact ⟨r, t, hdec.length, hdec.interpolates, ht, hdec.holds, hdec.above, hdec.frame⟩

/-- Settles O45: interpolation at a selected entry's point gives the entry's value. -/
theorem selectedSystematicPositionIsKept : Obligations.SelectedSystematicPositionIsKept := by
  intro s t raw sel h h0 hraw hsel e he hk
  obtain ⟨raw', hgood, hdecodes⟩ := execDec_success h h0
  obtain rfl := holds_unique hraw hgood.holds
  obtain ⟨ys, r, hys, hdec⟩ := hdecodes sel hsel
  obtain ⟨j, hj, rfl⟩ := List.getElem_of_mem he
  have hjlen : j < (points (selectedIndices raw sel)).length := by simpa [points] using hj
  have hnode := interp_node gfPoly_legal (hgood.selectedPoints_nodup hsel) ys hjlen
  have hpoint : (points (selectedIndices raw sel)).getD j 0 = point (raw.getD sel[j] 0).toNat := by
    rw [List.getD_eq_getElem _ _ hjlen]
    simp [points, selectedIndices]
  rw [hdec.readEntry_msg hk, ← hpoint, hnode, apply_eq_of_map_eq_map_some hys (List.getElem?_eq_getElem hj)]

/-- Settles O46: in both states the checks pick the same branch, and the same selected values give the same message. -/
theorem decDependsOnSelectedValuesOnly : Obligations.DecDependsOnSelectedValuesOnly := by
  rintro s u ⟨hk, hn, hv⟩ hc hidx hval
  have hg : u.gather .shIdx (List.range u.shCnt.toNat) = s.gather .shIdx (List.range s.shCnt.toNat) := by
    rw [hc]
    exact State.gather_congr fun e he => hidx e (List.mem_range.1 he)
  rw [exec_dec, exec_dec]
  rcases execDec_cases s with ⟨hvs, e⟩ | ⟨hvs, hcs, e⟩ | ⟨hvs, hcs, ⟨f, hf, e⟩ | ⟨raw, hraw, ⟨hbad, e⟩ |
    ⟨hb, hnd, -⟩⟩⟩
  · rw [e, execDec_of_not_valid (hv.trans hvs)]
    exact ⟨rfl, fun h => by cases h⟩
  · rw [e, execDec_of_shCnt_lt (hv.trans hvs) (by rwa [hc, hk])]
    exact ⟨rfl, fun h => by cases h⟩
  · rw [e, execDec_of_index_error (hv.trans hvs) (by rwa [hc, hk]) (hg.trans hf)]
  · rw [e, execDec_of_bad_index (hv.trans hvs) (by rwa [hc, hk]) ((State.gather_eq_ok ..).1 (hg.trans hraw))
      (by rwa [hn, ← nodup_map_toNat_iff])]
    exact ⟨rfl, fun h => by cases h⟩
  · have hs : GoodList s raw := ⟨hvs, hcs, (State.gather_eq_ok ..).1 hraw, hb, nodup_map_toNat_iff.1 hnd⟩
    have hu : GoodList u raw := hs.congr ⟨hk, hn, hv⟩ hc ((State.gather_eq_ok ..).1 (hg.trans hraw))
    obtain ⟨sel, hsel⟩ := hs.exists_isSelection
    have hsel' : IsSelection u.configK.toNat (raw.map BitVec.toNat) sel := by rwa [hk]
    have hgv := State.gather_congr (hval raw sel hs.holds hsel)
    cases hgs : s.gather .shVal sel with
    | error f => rw [hs.execDec_of_value_error hsel hgs, hu.execDec_of_value_error hsel' (hgv.trans hgs)]
    | ok ys =>
      obtain ⟨r, t, ht, hdec⟩ := hs.execDec_of_holds hsel ((State.gather_eq_ok ..).1 hgs)
      obtain ⟨r', v, ht', hdec'⟩ := hu.execDec_of_holds hsel' ((State.gather_eq_ok ..).1 (hgv.trans hgs))
      rw [ht, ht']
      exact ⟨hdec'.statusCode.trans hdec.statusCode.symm, fun _ => hdec.agree hdec' hk⟩

end Sys2Proof.Machine
end

section
/-! PROOF. DECL is DEC on the last K positions (R161), and both recover what ENCV encoded (R163). -/

namespace Sys2Proof.Machine

/-- A shard list of K entries, its indices rising, is selected whole (R162). -/
theorem isSelection_range {k : Nat} {idx : List Nat} (hlen : idx.length = k) (hlt : idx.Pairwise (· < ·)) :
    IsSelection k idx (List.range k) := by
  have hmap : ((List.range k).map fun e => idx.getD e 0) = idx :=
    List.ext_getElem (by simp [hlen]) fun j hj hj' => by simp [hj']
  refine ⟨List.length_range, fun e he => hlen ▸ List.mem_range.1 he, by rwa [hmap], fun e he hout => ?_⟩
  exact absurd (List.mem_range.2 (hlen ▸ he)) hout

theorem mem_lastPositions {k n i : Nat} (hkn : k ≤ n) : i ∈ lastPositions k n ↔ n - k ≤ i ∧ i < n := by
  rw [lastPositions, List.mem_range'_1, Nat.sub_add_cancel hkn]

/-- The points of the last K positions are distinct (R120). -/
theorem lastPoints_nodup (s : State) : (points (lastPositions s.configK.toNat s.configN.toNat)).Nodup :=
  points_nodup (lastPositions_nodup ..) fun _ hi => lastPositions_lt
    (Nat.le_of_lt_succ s.configK.isLt) (Nat.le_of_lt_succ s.configN.isLt) hi

/-- The shard list's indices with every position of the last K, in order (R161). -/
def lastList (k n : Nat) : List Byte := (lastPositions k n).map (BitVec.ofNat 8)

@[simp] theorem length_lastList (k n : Nat) : (lastList k n).length = k := by simp [lastList, lastPositions]

theorem map_toNat_lastList {k n : Nat} (hkn : k ≤ n) (hn : n ≤ 255) :
    (lastList k n).map BitVec.toNat = lastPositions k n := by
  rw [lastList, List.map_map, List.map_congr_left (g := id), List.map_id]
  intro i hi
  exact Nat.mod_eq_of_lt (by have := lastPositions_lt (hkn.trans hn) hn hi; omega)

theorem isSelection_lastList {k n : Nat} (hkn : k ≤ n) (hn : n ≤ 255) :
    IsSelection k ((lastList k n).map BitVec.toNat) (List.range k) :=
  isSelection_range (by simp) (by rw [map_toNat_lastList hkn hn]; exact List.pairwise_lt_range')

theorem selectedIndices_lastList {k n : Nat} (hkn : k ≤ n) (hn : n ≤ 255) :
    selectedIndices (lastList k n) (List.range k) = lastPositions k n := by
  rw [← map_getD_eq_selectedIndices, map_toNat_lastList hkn hn]
  exact List.ext_getElem (by simp [lastPositions]) fun j hj hj' => by simp [hj']

/-- The list of the last K positions passes DEC's checks (R161). -/
theorem goodList_lastList {u : State} (hv : u.configValid = true) (hkn : u.configK.toNat ≤ u.configN.toNat)
    (hc : u.shCnt = u.configK) (hidx : ∀ e < u.configK.toNat,
      u.readEntry .shIdx e = some (BitVec.ofNat 8 (u.configN.toNat - u.configK.toNat + e))) :
    GoodList u (lastList u.configK.toNat u.configN.toNat) := by
  have hmap := map_toNat_lastList hkn (Nat.le_of_lt_succ u.configN.isLt)
  refine ⟨hv, by rw [hc], holds_range_iff.2 ⟨by simp [hc], fun e he => ?_⟩, fun x hx => ?_, ?_⟩
  · rw [hc] at he
    rw [hidx e he]
    simp [lastList, lastPositions_eq_map, he]
  · have hmem := List.mem_map_of_mem (f := BitVec.toNat) hx
    rw [hmap, mem_lastPositions hkn] at hmem
    exact hmem.2
  · rw [← nodup_map_toNat_iff, hmap]
    exact lastPositions_nodup ..

/-- Settles O42: the list of the last K positions is good, is selected whole, and has DECL's points and values. -/
theorem declEqualsDecOfLastPositions : Obligations.DeclEqualsDecOfLastPositions := by
  rintro s t u hinv h h0 ⟨hk, hn, hv⟩ hc hlist
  obtain ⟨hvs, ys, r, hys, hdec⟩ := execDecl_success h h0
  obtain ⟨-, hkn⟩ := kn_bounds_of_valid hinv hvs
  obtain ⟨hlen, hcw⟩ := holds_lastPositions_iff.1 hys
  simp only [← hk, ← hn] at hc hkn hlen hcw hlist
  have hN := Nat.le_of_lt_succ u.configN.isLt
  have hgood := goodList_lastList (hv.trans hvs) hkn hc fun e he => (hlist e he).1
  have hval : Holds u .shVal (List.range u.configK.toNat) ys :=
    holds_range_iff.2 ⟨hlen, fun e he => (hlist e he).2.trans (hcw e he)⟩
  obtain ⟨r', v, hv', hdec'⟩ := hgood.execDec_of_holds (isSelection_lastList hkn hN) hval
  rw [selectedIndices_lastList hkn hN, hk, hn] at hdec'
  exact ⟨v, hv', hdec'.statusCode, hdec.agree hdec' hk⟩

/-- The message and the codeword of a successful ENCV are values of one polynomial of K coefficients (R148). -/
theorem encv_success_values {s t : State} (hinv : ConfigInv s) (h : exec .encv s = .next t) (h0 : t.statusCode = 0) :
    t.configValid = true ∧ t.configK.toNat ≤ t.configN.toNat ∧ ∃ q : List Byte, q.length = t.configK.toNat ∧
      (∀ j < t.configK.toNat, s.readEntry .msg j = some (horner Config.gfPoly q (point j))) ∧
      ∀ i < t.configN.toNat, t.readEntry .cw i = some (horner Config.gfPoly q (point i)) := by
  obtain ⟨hv, -⟩ := exec_encoder_success (.inl rfl) h h0
  obtain ⟨-, ⟨hk, hn, hvt⟩, -⟩ := encodersFrame .encv s t (.inl rfl) h
  obtain ⟨q, hq, hmsg, hcw, -⟩ := valueFormCodewordIsMds s t hinv h h0
  rw [hk, hn, hvt]
  exact ⟨hv, (kn_bounds_of_valid hinv hv).2, q, hq, hmsg, hcw⟩

/-- The values at the points of the positions `is`, taken one by one. -/
theorem holds_horner {s : State} {b : Buf} {is js : List Nat} {q : List Byte}
    (h : is.map (s.readEntry b) = js.map fun i => some (horner Config.gfPoly q (point i))) :
    Holds s b is ((points js).map (horner Config.gfPoly q)) := by
  rw [Holds, h, points, List.map_map, List.map_map]
  rfl

/-- Settles O43: the selected entries hold the values of the message's polynomial at their points. -/
theorem decRecoversEncodedMessage : Obligations.DecRecoversEncodedMessage := by
  rintro s t u raw hinv h h0 ⟨hk, hn, hv⟩ hc hraw hnd hb hval
  obtain ⟨hvt, -, q, hq, hmsg, hcw⟩ := encv_success_values hinv h h0
  have hgood : GoodList u raw := ⟨hv.trans hvt, hc, hraw, hb, hnd⟩
  obtain ⟨sel, hsel⟩ := hgood.exists_isSelection
  have ⟨hsellen, hselmem, _⟩ := hsel
  have hvals : Holds u .shVal sel ((points (selectedIndices raw sel)).map (horner Config.gfPoly q)) := by
    refine holds_horner ?_
    rw [selectedIndices, List.map_map]
    refine List.map_congr_left fun e he => ?_
    have hi := hgood.lt_of_mem_selectedIndices hsel (List.mem_map_of_mem he)
    have hecnt : e < u.shCnt.toNat := by simpa [hgood.length] using hselmem e he
    rw [hval e hecnt, hcw _ (hn ▸ hi)]
    rfl
  obtain ⟨r, v, hdecv, hdec⟩ := hgood.execDec_of_holds hsel hvals
  refine ⟨v, hdecv, hdec.statusCode, hdec.msgLen, fun j hj => ?_⟩
  have hqlen : q.length = (points (selectedIndices raw sel)).length := by
    rw [points, List.length_map, length_selectedIndices, hsellen, hq, hk]
  rw [hdec.readEntry_msg_horner (hgood.selectedPoints_nodup hsel) hqlen hj, hmsg j (hk ▸ hj)]

/-- Settles O44: the last K positions hold the values of the message's polynomial at their points. -/
theorem declRecoversEncodedMessage : Obligations.DeclRecoversEncodedMessage := by
  rintro s t u hinv h h0 ⟨hk, hn, hv⟩ hl hkept
  obtain ⟨hvt, hkn, q, hq, hmsg, hcw⟩ := encv_success_values hinv h h0
  rw [← hk, ← hn] at hkn
  have hvals : Holds u .cw (lastPositions u.configK.toNat u.configN.toNat)
      ((points (lastPositions u.configK.toNat u.configN.toNat)).map (horner Config.gfPoly q)) := by
    refine holds_horner (List.map_congr_left fun i hi => ?_)
    obtain ⟨hlo, hhi⟩ := (mem_lastPositions hkn).1 hi
    rw [hkept i hhi hlo, hcw i (hn ▸ hhi)]
  obtain ⟨r, v, hdecv, hdec⟩ := execDecl_of_holds (hv.trans hvt) hl hvals
  refine ⟨v, hdecv, hdec.statusCode, hdec.msgLen, fun j hj => ?_⟩
  rw [hdec.readEntry_msg_horner (lastPoints_nodup u) (by simp [points, lastPositions, hq, hk]) hj, hmsg j (hk ▸ hj)]

end Sys2Proof.Machine
end

section
/-! PROOF. The end of a run (R183, R215): what each outcome of a step makes of it, and why a recorded fault stays. -/

namespace Sys2Proof.Machine

theorem runEnd_of_idle {s : State} (hp : s.pending = []) (n : Nat) : runEnd n s = ⟨s, [], none⟩ := by
  cases n with
  | zero => rfl
  | succ n => simp only [runEnd, hp]

section Busy
variable {s : State} (hp : s.pending ≠ [])
include hp

theorem runEnd_of_next {t : State} (h : step s = .next t) (n : Nat) : runEnd (n + 1) s = runEnd n t := by
  obtain ⟨e, rest, hp⟩ := List.exists_cons_of_ne_nil hp
  simp only [runEnd, hp, h]

theorem runEnd_of_fault {f : Fault} (h : step s = .fault f) (n : Nat) : runEnd (n + 1) s = ⟨s, [f], none⟩ := by
  obtain ⟨e, rest, hp⟩ := List.exists_cons_of_ne_nil hp
  simp only [runEnd, hp, h]

theorem runEnd_of_refused {r : Refusal} (h : step s = .refused r) (n : Nat) :
    runEnd (n + 1) s = ⟨s, [], some r⟩ := by
  obtain ⟨e, rest, hp⟩ := List.exists_cons_of_ne_nil hp
  simp only [runEnd, hp, h]

end Busy

/-- By induction on the steps already given: the run of one step fewer, from the next state, has met the fault,
unless the fault is this step's. -/
theorem runEnd_add_of_faults {n : Nat} {s : State} (h : (runEnd n s).faults ≠ []) (m : Nat) :
    runEnd (n + m) s = runEnd n s := by
  induction n generalizing s with
  | zero => exact absurd rfl h
  | succ n ih =>
    rw [Nat.succ_add]
    by_cases hp : s.pending = []
    · rw [runEnd_of_idle hp, runEnd_of_idle hp]
    · cases hs : step s with
      | next t =>
        rw [runEnd_of_next hp hs] at h ⊢
        rw [runEnd_of_next hp hs, ih h]
      | fault f => rw [runEnd_of_fault hp hs, runEnd_of_fault hp hs]
      | refused r => rw [runEnd_of_refused hp hs, runEnd_of_refused hp hs]

theorem not_good_of_faults {e : RunEnd} (h : e.faults ≠ []) : ¬ e.good := fun ⟨_, hf, _⟩ => h hf

/-- Settles O11: further steps leave the run's end as it is, and with it the fault record. -/
theorem faultedRunKeepsItsFault : Obligations.FaultedRunKeepsItsFault := by
  intro n m s h
  have hend := runEnd_add_of_faults h m
  exact ⟨hend, hend ▸ not_good_of_faults h⟩

end Sys2Proof.Machine
end

section
/-! PROOF. NOP and CLRS (R180, R181): each ends by `done`, and CLRS clears STICKY first. -/

namespace Sys2Proof.Machine

theorem exec_nop (s : State) : exec .nop s = .next { s with statusCode := 0 } := commandDone_eq s

theorem exec_clrs (s : State) : exec .clrs s = .next { s with statusCode := 0, statusSticky := false } :=
  commandDone_eq (s.setStatus s.statusCode false)

theorem statusWord_eq_zero {s : State} (hc : s.statusCode = 0) (hs : s.statusSticky = false) : s.statusWord = 0 :=
  BitVec.eq_of_toNat_eq (by rw [toNat_statusWord, hc, hs]; rfl)

/-- Settles O12, by the command words and the next states. -/
theorem nopAndClrsWriteStatusOnly : Obligations.NopAndClrsWriteStatusOnly :=
  ⟨rfl, rfl, fun s => ⟨exec_nop s, exec_clrs s, statusWord_eq_zero rfl rfl⟩⟩

end Sys2Proof.Machine
end

section
/-! PROOF. How a command ends (R200 to R203): a failure writes STATUS only, and the codes of each command are those of
R201's table, each of them reached. -/

namespace Sys2Proof.Machine

/-- Settles O47: a next state with a nonzero code is a failure's, for outputs end with CODE = 0. -/
theorem failureWritesOnlyStatus : Obligations.FailureWritesOnlyStatus := by
  intro i s t h h0
  rcases exec_next h with ⟨c, -, rfl⟩ | ⟨u, -, rfl⟩
  · rfl
  · exact absurd rfl h0

/-- If the answer is a next state, its code is one of `l`. -/
def Answer.CodeIn (l : List Byte) : Answer → Prop
  | .next t => t.statusCode ∈ l
  | .fault _ | .refused _ => True

theorem commandDone_codeIn {l : List Byte} (h : 0 ∈ l) (s : State) : Answer.CodeIn l (commandDone s) := h

theorem commandFail_codeIn {l : List Byte} {c : StatusCode} (h : c.toByte ∈ l) (s : State) :
    Answer.CodeIn l (commandFail c s) := h

theorem fault_codeIn (l : List Byte) (f : Fault) : Answer.CodeIn l (.fault f) := trivial

theorem execGdiv_codeIn (a b : Byte) (s : State) : Answer.CodeIn [0, 4] (execGdiv a b s) := by
  unfold execGdiv
  split
  · exact commandFail_codeIn (by decide) s
  · exact commandDone_codeIn (by decide) _

theorem configure_codeIn (k : Byte) (n : Nat) (s : State) : Answer.CodeIn [0, 5] (configure k n s) := by
  rcases configure_cases k n s with ⟨-, e⟩ | ⟨-, e⟩ <;> rw [e]
  · exact commandDone_codeIn (by decide) _
  · exact commandFail_codeIn (by decide) s

theorem execEvpt_codeIn (idx : Byte) (s : State) : Answer.CodeIn [0, 6, 3] (execEvpt idx s) := by
  unfold execEvpt
  split_ifs
  · exact commandFail_codeIn (by decide) s
  · exact commandFail_codeIn (by decide) s
  · exact commandDone_codeIn (by decide) _

theorem exec_encoder_codeIn {i : Instr} (hi : i = .encv ∨ i = .encc) (s : State) :
    Answer.CodeIn [0, 6, 1] (exec i s) := by
  rw [exec_encoder hi]
  rcases withMessage_cases s fun m => codewordDone (codeword i s.configK.toNat s.configN.toNat m) s with
    ⟨-, e⟩ | ⟨-, -, e⟩ | ⟨-, -, f, -, e⟩ | ⟨-, -, m, -, e⟩ <;> rw [e]
  · exact commandFail_codeIn (by decide) s
  · exact commandFail_codeIn (by decide) s
  · exact fault_codeIn _ f
  · exact commandDone_codeIn (by decide) _

/-- Decoding from distinct positions meets no division by zero, so DEC and DECL end past their checks with CODE = 0. -/
theorem decodeFrom_codeIn {l : List Byte} (h : 0 ∈ l) {is : List Nat} (hn : is.Nodup) (hb : ∀ i ∈ is, i < 255)
    (ys : List Byte) (s : State) : Answer.CodeIn l (decodeFrom is ys s) := by
  obtain ⟨r, -, e⟩ := decodeFrom_eq hn hb ys s
  exact e ▸ commandDone_codeIn h _

theorem execDec_codeIn (s : State) : Answer.CodeIn [0, 6, 2, 3] (execDec s) := by
  rcases execDec_cases s with ⟨-, e⟩ | ⟨-, -, e⟩ | ⟨hv, hc, ⟨f, -, e⟩ | ⟨raw, hraw, ⟨-, e⟩ |
    ⟨hb, hn, ⟨f, -, e⟩ | ⟨ys, -, e⟩⟩⟩⟩ <;> rw [e]
  · exact commandFail_codeIn (by decide) s
  · exact commandFail_codeIn (by decide) s
  · exact fault_codeIn _ f
  · exact commandFail_codeIn (by decide) s
  · exact fault_codeIn _ f
  · have hgood : GoodList s raw := ⟨hv, hc, (State.gather_eq_ok ..).1 hraw, hb, nodup_map_toNat_iff.1 hn⟩
    have hsel := hgood.isSelection_selectEntries
    rw [map_getD_eq_selectedIndices]
    exact decodeFrom_codeIn (by decide) (selectedIndices_nodup_of_isSelection hsel)
      (fun _ => hgood.lt_255_of_mem_selectedIndices hsel) ys s

theorem execDecl_codeIn (s : State) : Answer.CodeIn [0, 6, 1] (execDecl s) := by
  rcases execDecl_cases s with ⟨-, e⟩ | ⟨-, -, e⟩ | ⟨-, -, ⟨f, -, e⟩ | ⟨ys, -, e⟩⟩ <;> rw [e]
  · exact commandFail_codeIn (by decide) s
  · exact commandFail_codeIn (by decide) s
  · exact fault_codeIn _ f
  · exact decodeFrom_codeIn (by decide) (lastPositions_nodup ..) (fun _ => lastPositions_lt
      (Nat.le_of_lt_succ s.configK.isLt) (Nat.le_of_lt_succ s.configN.isLt)) ys s

/-- A command ends with no code that R201 does not list for it. -/
theorem exec_codeIn_codesOf (i : Instr) (s : State) : Answer.CodeIn (codesOf i.mnemonic) (exec i s) := by
  cases i with
  | nop | clrs | gadd | gsub | gmul | gpow => exact commandDone_codeIn (List.mem_singleton_self 0) _
  | gdiv a b => exact execGdiv_codeIn a b s
  | cfge k _ | cfgd k _ => exact configure_codeIn k _ s
  | evpt idx => exact execEvpt_codeIn idx s
  | encv => exact exec_encoder_codeIn (.inl rfl) s
  | encc => exact exec_encoder_codeIn (.inr rfl) s
  | dec => exact execDec_codeIn s
  | decl => exact execDecl_codeIn s

/-- Some command of mnemonic `x` ends with code `c` in some state. -/
def EndsWith (x : Mnemonic) (c : Byte) : Prop :=
  ∃ (i : Instr) (s t : State), i.mnemonic = x ∧ exec i s = .next t ∧ t.statusCode = c

theorem endsWith_of_fail (i : Instr) (s : State) (c : StatusCode) (h : exec i s = commandFail c s) :
    EndsWith i.mnemonic c.toByte := ⟨i, s, _, rfl, h, rfl⟩

/-- A state in which every command has what it needs: the configuration (1, 2), a message of one symbol, its codeword
and a list of one shard of it. -/
def oneSymbol : State :=
  { State.reset with
    configK := 1, configN := 2, configValid := true, msgLen := 1, cwLen := 2, shCnt := 1
    msg := [(0, 7)], cw := [(0, 7), (1, 7)], shIdx := [(0, 1)], shVal := [(0, 7)] }

/-- Every command can complete. -/
theorem endsWith_zero (x : Mnemonic) : EndsWith x 0 := by
  refine ⟨x.command 1 1 1, oneSymbol, ?_⟩
  cases x <;> exact ⟨_, rfl, rfl, rfl⟩

/-- A command ends with every code that R201 lists for it: each failing check stops a command on its own. -/
theorem endsWith_of_mem_codesOf {x : Mnemonic} {c : Byte} (h : c ∈ codesOf x) : EndsWith x c := by
  by_cases h0 : c = 0
  · exact h0 ▸ endsWith_zero x
  cases x with
  | nop | clrs | gadd | gsub | gmul | gpow => exact absurd (List.mem_singleton.1 h) h0
  | gdiv =>
    obtain rfl : c = 4 := by simpa using (List.mem_cons.1 h).resolve_left h0
    exact endsWith_of_fail (.gdiv 1 0) oneSymbol .divisionByZero rfl
  | cfge =>
    obtain rfl : c = 5 := by simpa using (List.mem_cons.1 h).resolve_left h0
    exact endsWith_of_fail (.cfge 0 1) oneSymbol .configurationError rfl
  | cfgd =>
    obtain rfl : c = 5 := by simpa using (List.mem_cons.1 h).resolve_left h0
    exact endsWith_of_fail (.cfgd 0 1) oneSymbol .configurationError rfl
  | evpt =>
    obtain rfl | rfl : c = 6 ∨ c = 3 := by simpa using (List.mem_cons.1 h).resolve_left h0
    · exact endsWith_of_fail (.evpt 1) State.reset .notConfigured rfl
    · exact endsWith_of_fail (.evpt 2) oneSymbol .duplicateOrInvalidIndex rfl
  | encv =>
    obtain rfl | rfl : c = 6 ∨ c = 1 := by simpa using (List.mem_cons.1 h).resolve_left h0
    · exact endsWith_of_fail .encv State.reset .notConfigured rfl
    · exact endsWith_of_fail .encv (oneSymbol.setMsgLen 0) .invalidInputLength rfl
  | encc =>
    obtain rfl | rfl : c = 6 ∨ c = 1 := by simpa using (List.mem_cons.1 h).resolve_left h0
    · exact endsWith_of_fail .encc State.reset .notConfigured rfl
    · exact endsWith_of_fail .encc (oneSymbol.setMsgLen 0) .invalidInputLength rfl
  | dec =>
    obtain rfl | rfl | rfl : c = 6 ∨ c = 2 ∨ c = 3 := by simpa using (List.mem_cons.1 h).resolve_left h0
    · exact endsWith_of_fail .dec State.reset .notConfigured rfl
    · exact endsWith_of_fail .dec (oneSymbol.setShCnt 0) .insufficientShards rfl
    · exact endsWith_of_fail .dec (oneSymbol.writeEntry .shIdx 0 2) .duplicateOrInvalidIndex rfl
  | decl =>
    obtain rfl | rfl : c = 6 ∨ c = 1 := by simpa using (List.mem_cons.1 h).resolve_left h0
    · exact endsWith_of_fail .decl State.reset .notConfigured rfl
    · exact endsWith_of_fail .decl (oneSymbol.setCwLen 0) .invalidInputLength rfl

/-- An illegal word fails by name (R86, R201). -/
theorem execWord_of_decode_error {w : Word} {e : Illegal} (h : decode w = .error e) (s : State) :
    execWord w s = commandFail .illegalCommand s := by
  simp only [execWord, h]

/-- Settles O48: one bound for all commands, and a state for each code. -/
theorem codesEachCommandEndsWith : Obligations.CodesEachCommandEndsWith := by
  refine ⟨fun x c => ⟨endsWith_of_mem_codesOf, ?_⟩, fun w e s h => ⟨_, execWord_of_decode_error h s, rfl⟩⟩
  rintro ⟨i, s, t, rfl, h, rfl⟩
  exact (h ▸ exec_codeIn_codesOf i s : Answer.CodeIn _ (.next t))

end Sys2Proof.Machine
end

section
/-! PROOF. The reset event (R230, R231): the unit's state becomes that after reset, and the host's side stays. -/

namespace Sys2Proof.Machine

theorem step_of_reset {s : State} {rest : List HostEvent} (h : s.pending = .reset :: rest) :
    step s = .next (s.setPending rest).resetUnit := step_of_pending h

theorem configWord_eq_zero {s : State} (hk : s.configK = 0) (hn : s.configN = 0) (hv : s.configValid = false) :
    s.configWord = 0 := by
  rw [State.configWord, hk, hn, hv]
  rfl

/-- After reset every buffer lists no entry (R25, R230). -/
@[simp] theorem State.buf_reset (b : Buf) : State.reset.buf b = [] := by
  cases b <;> rfl

theorem State.readEntry_reset (b : Buf) (i : Nat) : State.reset.readEntry b i = none := by
  simp only [State.readEntry, State.buf_reset, Memory.lookup_nil]

/-- Settles O9: the reset event leaves of a state only the host's side, and after reset both words are of zero fields
and no entry is listed. -/
theorem resetGivesResetState : Obligations.ResetGivesResetState :=
  ⟨fun _ _ h => step_of_reset h, statusWord_eq_zero rfl rfl, rfl, configWord_eq_zero rfl rfl rfl, rfl, rfl, rfl,
    State.readEntry_reset⟩

end Sys2Proof.Machine
end
